-- ==== Sys2Proof/Word.lean ====
section
/-! DEFINITION. The widths the spec writes as `u8`, `u16`, `u29`, `u32`, byte buffers, and the two short fixed groups of
bytes the request and response records hold (00_scope.md R7, R8). -/

namespace Sys2Proof

/-- `u8`. -/
abbrev Byte := BitVec 8

/-- `u16`. -/
abbrev Half := BitVec 16

/-- `u32`: an identifier operand before its width check, or a binary32 bit pattern. -/
abbrev Word := BitVec 32

/-- `u29`: an extended CAN identifier (`ID_BITS`, 00_scope.md R6). -/
abbrev CanId := BitVec 29

/-- A byte buffer: a finite sequence of `u8` (00_scope.md R8). -/
abbrev Buffer := List Byte

/-- `8 × u8`: the payload slots of a request or of a CAN frame (10_state.md R34). -/
structure Bytes8 where
  b0 : Byte
  b1 : Byte
  b2 : Byte
  b3 : Byte
  b4 : Byte
  b5 : Byte
  b6 : Byte
  b7 : Byte
deriving DecidableEq, Repr

/-- Index order, byte 0 first. -/
def Bytes8.toList (p : Bytes8) : List Byte := [p.b0, p.b1, p.b2, p.b3, p.b4, p.b5, p.b6, p.b7]

/-- Eight zero bytes. -/
def Bytes8.zero : Bytes8 := ⟨0, 0, 0, 0, 0, 0, 0, 0⟩

/-- `4 × u8`: the raw value bytes of a `Param` result, in wire order (10_state.md R36). -/
structure Bytes4 where
  b0 : Byte
  b1 : Byte
  b2 : Byte
  b3 : Byte
deriving DecidableEq, Repr

end Sys2Proof
end

