-- ==== Sys2Proof/Config.lean ====
section
/-! DEFINITION. What the spec leaves to the implementation: the input buffer capacity `IN_CAP` (00_scope.md R6, OPEN) and
which NaN a float operation makes, which the spec states nowhere. Neither has a value in the model. -/

namespace Sys2Proof

/-- How many bytes beyond one full frame the interface can present. OPEN in the spec (92_eei_decisions.md D27), so it
has no value here: notes/assumptions/1.md. -/
opaque Config.capBeyondFrame : Nat

/-- `IN_CAP`, the largest input buffer the interface can present: OPEN, but at least 26 (00_scope.md R6). -/
def Config.IN_CAP : Nat := Config.capBeyondFrame + 26

/-- The four float operations of 00_scope.md R10. -/
inductive FloatOp where
  | add
  | sub
  | mul
  | div
deriving DecidableEq, Repr

/-- FREE VALUE. The sign of a NaN that an operation makes of two operand patterns: notes/assumptions/2.md. -/
opaque Config.nanSign : FloatOp → Word → Word → Bool

/-- FREE VALUE. Which of the `2^23 - 1` nonzero fractions such a NaN has. The spec says which results are NaNs, by naming
IEEE-754, and not which NaN; no operation of the block ever makes one (44_quantization_lut.md R232):
notes/assumptions/2.md. -/
opaque Config.nanFraction : FloatOp → Word → Word → Fin 0x7FFFFF

end Sys2Proof
end

