-- ==== Sys2Proof/Syntax.lean ====
section
/-! DEFINITION. The operations of the block as data: the three enumerations, the instruction type with one constructor
per row of opcode_table.json, and the raw records that are decoded into it (10_state.md R34, 30_encoding.md R80-R103). -/

namespace Sys2Proof

/-- Frame kind (10_state.md R39). -/
inductive FrameKind where
  | extData
  | stdData
  | extRemote
  | stdRemote
deriving DecidableEq, Repr

/-- Run mode, the operand of ENC.RUN_MODE (10_state.md R42). -/
inductive RunMode where
  | operationControl
  | position
  | speed
  | current
deriving DecidableEq, Repr

/-- LUT selector (10_state.md R40). -/
inductive Quantity where
  | angle
  | speed
  | torque
  | temp
deriving DecidableEq, Repr

/-- One constructor per row of opcode_table.json. The first eleven are the operations of the request interface
(30_encoding.md R100). The four `mark…` rows are the marker bytes that the frame decoder dispatches on at index 0 of a
line (40_slcan_frame_codec.md R131); the operand is the rest of the line. The six `ct…` rows are the communication types
of the 29-bit identifier (30_encoding.md R103): three the block emits, three its reply decoder dispatches on. -/
inductive Instr where
  | frameEnc (kind : FrameKind) (id : Word) (plen : BitVec 4) (payload : Bytes8)
  | frameDec (input : Buffer)
  | idPack (ctype : BitVec 5) (host motor : Byte)
  | idUnpack (id : CanId)
  | qDec (q : Quantity) (raw : Half)
  | qEnc (q : Quantity) (value : Word)
  | encEnable (host motor : Byte)
  | encDisable (host motor : Byte)
  | encRunMode (host motor : Byte) (mode : RunMode)
  | encWriteFloat (host motor : Byte) (index : Half) (value : Word)
  | decResponse (input : Buffer)
  | markExtData (rest : Buffer)
  | markStdData (rest : Buffer)
  | markExtRemote (rest : Buffer)
  | markStdRemote (rest : Buffer)
  | ct3Enable (host motor : Byte)
  | ct4Disable (host motor : Byte)
  | ct18WriteParam (host motor : Byte) (index : Half) (value : Word)
  | ct2StatusReport (mode : BitVec 2) (faults : BitVec 6) (motor host : Byte) (payload : Bytes8)
  | ct17ReadParam (mid : Byte) (motor host : Byte) (payload : Bytes8)
  | ct0DeviceId (low : BitVec 24) (payload : Bytes8)
deriving DecidableEq, Repr

/-- The request record: an operation select code with every operand field the operations have (10_state.md R34). An
operation reads the fields its own row lists; the record is not packed into words (92_eei_decisions.md D2): notes/assumptions/11.md. -/
structure Request where
  opsel   : Byte
  kind    : BitVec 2
  id      : Word
  plen    : BitVec 4
  payload : Bytes8
  input   : Buffer
  ctype   : BitVec 5
  host    : Byte
  motor   : Byte
  canId   : CanId
  mode    : BitVec 2
  index   : Half
  value   : Word
  q       : BitVec 2
  raw     : Half
deriving DecidableEq, Repr

/-- What stands at the block's input. `request` is the request interface of 10_state.md R34, the only thing a host can
present. `line` and `canFrame` enter the block's own inner dispatch points, the marker classification of a line (R131) and
the communication-type dispatch of a CAN frame (R103, R202), so that those rows of the opcode table can be run on their
own: notes/assumptions/3.md. -/
inductive Presented where
  | request (r : Request)
  | line (bytes : Buffer)
  | canFrame (id : Word) (payload : Bytes8)
deriving DecidableEq, Repr

end Sys2Proof
end

