-- ==== Sys2Proof/WellFormed.lean ====
section
/-! DEFINITION. When an instruction can be presented at all. Every operand field has a fixed width, which its type already
enforces (10_state.md R34); the one bound left is that an input buffer holds at most `IN_CAP` bytes (R34, R47 item 3). -/

namespace Sys2Proof

/-- The input buffer an instruction carries, if it carries one. A `mark…` row is a line whose first byte is the marker. -/
def Instr.inputLength : Instr → Nat
  | .frameEnc _ _ _ _ => 0
  | .frameDec input => input.length
  | .idPack _ _ _ => 0
  | .idUnpack _ => 0
  | .qDec _ _ => 0
  | .qEnc _ _ => 0
  | .encEnable _ _ => 0
  | .encDisable _ _ => 0
  | .encRunMode _ _ _ => 0
  | .encWriteFloat _ _ _ _ => 0
  | .decResponse input => input.length
  | .markExtData rest => rest.length + 1
  | .markStdData rest => rest.length + 1
  | .markExtRemote rest => rest.length + 1
  | .markStdRemote rest => rest.length + 1
  | .ct3Enable _ _ => 0
  | .ct4Disable _ _ => 0
  | .ct18WriteParam _ _ _ _ => 0
  | .ct2StatusReport _ _ _ _ _ => 0
  | .ct17ReadParam _ _ _ _ => 0
  | .ct0DeviceId _ _ => 0

/-- An instruction the interface can present: `0 ≤ len(in) ≤ IN_CAP` (10_state.md R34). -/
def Instr.wf (i : Instr) : Bool := decide (i.inputLength ≤ Config.IN_CAP)

/-- A presented record whose buffer fits the interface. -/
def Presented.wf : Presented → Bool
  | .request r => decide (r.input.length ≤ Config.IN_CAP)
  | .line bytes => decide (bytes.length ≤ Config.IN_CAP)
  | .canFrame _ _ => true

end Sys2Proof
end

