-- ==== Sys2Proof/Decode.lean ====
section
/-! DEFINITION. The decoder, total on everything that can be presented and rejecting by name, and after it the encoder
written from the same tables: the operation select codes (30_encoding.md R100), the marker bytes
(40_slcan_frame_codec.md R131), the identifier layouts of command and reply frames (30_encoding.md R83, R84), and the
command payloads (R85). -/

namespace Sys2Proof

/-- Why a presented record spells no row of the opcode table. -/
inductive DecodeError where
  /-- An operation select code that is none of the eleven (30_encoding.md R101). -/
  | illegalOperation (opsel : Byte)
  /-- A line with no first byte (40_slcan_frame_codec.md R132). -/
  | emptyLine
  /-- A first byte that is no marker (40_slcan_frame_codec.md R131). -/
  | noFrameKind (first : Byte)
  /-- An identifier above 29 bits (40_slcan_frame_codec.md R133). -/
  | identifierTooWide (id : Word)
  /-- A communication type, or a command frame that breaks its reserved zeros, with no row (30_encoding.md R103). -/
  | noCommunicationType (ctype : BitVec 5)
deriving DecidableEq, Repr

/-! Enumeration codes. -/

/-- 10_state.md R39. -/
def FrameKind.code : FrameKind → BitVec 2
  | .extData => 0
  | .stdData => 1
  | .extRemote => 2
  | .stdRemote => 3

/-- 10_state.md R39. -/
def FrameKind.ofCode (c : BitVec 2) : FrameKind :=
  if c = 0 then .extData else if c = 1 then .stdData else if c = 2 then .extRemote else .stdRemote

/-- 10_state.md R42. -/
def RunMode.code : RunMode → BitVec 2
  | .operationControl => 0
  | .position => 1
  | .speed => 2
  | .current => 3

/-- 10_state.md R42. -/
def RunMode.ofCode (c : BitVec 2) : RunMode :=
  if c = 0 then .operationControl else if c = 1 then .position else if c = 2 then .speed else .current

/-- 10_state.md R40. -/
def Quantity.code : Quantity → BitVec 2
  | .angle => 0
  | .speed => 1
  | .torque => 2
  | .temp => 3

/-- 10_state.md R40. -/
def Quantity.ofCode (c : BitVec 2) : Quantity :=
  if c = 0 then .angle else if c = 1 then .speed else if c = 2 then .torque else .temp

/-! Marker bytes. -/

/-- The marker byte of each frame kind (40_slcan_frame_codec.md R131). -/
def FrameKind.markByte : FrameKind → Byte
  | .extData => 0x54
  | .stdData => 0x74
  | .extRemote => 0x52
  | .stdRemote => 0x72

/-- `Marker(m)`: the frame kind of a first byte, or none (40_slcan_frame_codec.md R131). -/
def marker (m : Byte) : Option FrameKind :=
  if m = 0x54 then some .extData
  else if m = 0x74 then some .stdData
  else if m = 0x52 then some .extRemote
  else if m = 0x72 then some .stdRemote
  else none

/-! The decoder. -/

/-- The operation a request selects (30_encoding.md R100, R101). -/
def decodeRequest (r : Request) : Except DecodeError Instr :=
  if r.opsel = 0x01 then .ok (.frameEnc (FrameKind.ofCode r.kind) r.id r.plen r.payload)
  else if r.opsel = 0x02 then .ok (.frameDec r.input)
  else if r.opsel = 0x03 then .ok (.idPack r.ctype r.host r.motor)
  else if r.opsel = 0x04 then .ok (.idUnpack r.canId)
  else if r.opsel = 0x05 then .ok (.qDec (Quantity.ofCode r.q) r.raw)
  else if r.opsel = 0x06 then .ok (.qEnc (Quantity.ofCode r.q) r.value)
  else if r.opsel = 0x10 then .ok (.encEnable r.host r.motor)
  else if r.opsel = 0x11 then .ok (.encDisable r.host r.motor)
  else if r.opsel = 0x12 then .ok (.encRunMode r.host r.motor (RunMode.ofCode r.mode))
  else if r.opsel = 0x13 then .ok (.encWriteFloat r.host r.motor r.index r.value)
  else if r.opsel = 0x20 then .ok (.decResponse r.input)
  else .error (.illegalOperation r.opsel)

/-- The marker row that a line's first byte spells (40_slcan_frame_codec.md R131). -/
def decodeLine : Buffer → Except DecodeError Instr
  | [] => .error .emptyLine
  | m :: rest =>
    match marker m with
    | some .extData => .ok (.markExtData rest)
    | some .stdData => .ok (.markStdData rest)
    | some .extRemote => .ok (.markExtRemote rest)
    | some .stdRemote => .ok (.markStdRemote rest)
    | none => .error (.noFrameKind m)

/-- The communication-type row an identifier spells. A command frame (types 3, 4, 18) has zeros in bits 23-16
(30_encoding.md R83), and a type-18 payload has zeros in bytes 2-3 (R85). Bits 23-16 of a reply are its mode and faults
(type 2) or are not decoded (types 17 and 0; R84, R203). -/
def decodeCanFrame (id : Word) (p : Bytes8) : Except DecodeError Instr :=
  let ctype : BitVec 5 := id.extractLsb' 24 5
  let mid : Byte := id.extractLsb' 16 8
  let hi : Byte := id.extractLsb' 8 8
  let lo : Byte := id.extractLsb' 0 8
  if id.extractLsb' 29 3 ≠ 0 then .error (.identifierTooWide id)
  else if ctype = 3 ∧ mid = 0 then .ok (.ct3Enable hi lo)
  else if ctype = 4 ∧ mid = 0 then .ok (.ct4Disable hi lo)
  else if ctype = 18 ∧ mid = 0 ∧ p.b2 = 0 ∧ p.b3 = 0 then
    .ok (.ct18WriteParam hi lo (p.b1 ++ p.b0) (p.b7 ++ p.b6 ++ p.b5 ++ p.b4))
  else if ctype = 2 then .ok (.ct2StatusReport (id.extractLsb' 22 2) (id.extractLsb' 16 6) hi lo p)
  else if ctype = 17 then .ok (.ct17ReadParam mid hi lo p)
  else if ctype = 0 then .ok (.ct0DeviceId (id.extractLsb' 0 24) p)
  else .error (.noCommunicationType ctype)

/-- What a presented record asks for, or the named reason why it asks for nothing. -/
def decode : Presented → Except DecodeError Instr
  | .request r => decodeRequest r
  | .line bytes => decodeLine bytes
  | .canFrame id payload => decodeCanFrame id payload

/-! The encoder. -/

/-- A request record with an operation select code and every operand field zero or empty. -/
def Request.blank (opsel : Byte) : Request :=
  { opsel := opsel, kind := 0, id := 0, plen := 0, payload := Bytes8.zero, input := [], ctype := 0, host := 0, motor := 0,
    canId := 0, mode := 0, index := 0, value := 0, q := 0, raw := 0 }

/-- The identifier of a command frame: type, reserved zeros, host, motor (30_encoding.md R83). -/
def commandWord (ctype : BitVec 5) (host motor : Byte) : Word := (0 : BitVec 3) ++ ctype ++ (0 : Byte) ++ host ++ motor

/-- The identifier of a reply frame: type, bits 23-16, motor, host (30_encoding.md R84). -/
def replyWord (ctype : BitVec 5) (mid motor host : Byte) : Word := (0 : BitVec 3) ++ ctype ++ mid ++ motor ++ host

/-- The record that presents an instruction (30_encoding.md R83-R87, R100; 40_slcan_frame_codec.md R131). -/
def encode : Instr → Presented
  | .frameEnc kind id plen payload =>
    .request { Request.blank 0x01 with kind := kind.code, id := id, plen := plen, payload := payload }
  | .frameDec input => .request { Request.blank 0x02 with input := input }
  | .idPack ctype host motor => .request { Request.blank 0x03 with ctype := ctype, host := host, motor := motor }
  | .idUnpack id => .request { Request.blank 0x04 with canId := id }
  | .qDec q raw => .request { Request.blank 0x05 with q := q.code, raw := raw }
  | .qEnc q value => .request { Request.blank 0x06 with q := q.code, value := value }
  | .encEnable host motor => .request { Request.blank 0x10 with host := host, motor := motor }
  | .encDisable host motor => .request { Request.blank 0x11 with host := host, motor := motor }
  | .encRunMode host motor mode =>
    .request { Request.blank 0x12 with host := host, motor := motor, mode := mode.code }
  | .encWriteFloat host motor index value =>
    .request { Request.blank 0x13 with host := host, motor := motor, index := index, value := value }
  | .decResponse input => .request { Request.blank 0x20 with input := input }
  | .markExtData rest => .line (FrameKind.extData.markByte :: rest)
  | .markStdData rest => .line (FrameKind.stdData.markByte :: rest)
  | .markExtRemote rest => .line (FrameKind.extRemote.markByte :: rest)
  | .markStdRemote rest => .line (FrameKind.stdRemote.markByte :: rest)
  | .ct3Enable host motor => .canFrame (commandWord 3 host motor) Bytes8.zero
  | .ct4Disable host motor => .canFrame (commandWord 4 host motor) Bytes8.zero
  | .ct18WriteParam host motor index value =>
    .canFrame (commandWord 18 host motor)
      ⟨index.extractLsb' 0 8, index.extractLsb' 8 8, 0, 0,
       value.extractLsb' 0 8, value.extractLsb' 8 8, value.extractLsb' 16 8, value.extractLsb' 24 8⟩
  | .ct2StatusReport mode faults motor host payload => .canFrame (replyWord 2 (mode ++ faults) motor host) payload
  | .ct17ReadParam mid motor host payload => .canFrame (replyWord 17 mid motor host) payload
  | .ct0DeviceId low payload => .canFrame ((0 : BitVec 8) ++ low) payload

/-! The opcode table's own numbering of words. -/

/-- The record that presents a word of opcode_table.json. A row of at most 8 bits is a marker byte or an operation select
code (the two sets do not meet); a wider row is a 29-bit identifier. Every operand beyond the word is zero or empty. -/
def tableWord (nbits w : Nat) : Presented :=
  if nbits ≤ 8 then
    match marker (BitVec.ofNat 8 w) with
    | some _ => .line [BitVec.ofNat 8 w]
    | none => .request (Request.blank (BitVec.ofNat 8 w))
  else .canFrame (BitVec.ofNat 32 w) Bytes8.zero

/-- The instruction the decoder reads from a word of opcode_table.json. -/
def decodeTableWord (nbits w : Nat) : Option Instr :=
  match decode (tableWord nbits w) with
  | .ok i => some i
  | .error _ => none

end Sys2Proof
end

