-- ==== Sys2Proof/Machine/State.lean ====
section
/-! DEFINITION. The state of the block and of the host in front of it, as plain data: the response register `RSP`
(10_state.md R32), the request in presentation (R44), and the host agent (R33). The block has no registers, program
counter, memory, modes or interrupts (R30, R31; 20_memory.md R60; 60_exceptions.md R253, R259). -/

namespace Sys2Proof.Machine

/-- Error kinds, one per status code 1 to 9 (60_exceptions.md R251). -/
inductive ErrKind where
  | idOutOfRange
  | malformedFrame
  | invalidHexDigit
  | invalidNumericValue
  | unsupportedFrameKind
  | unknownCommunicationType
  | notImplemented
  | illegalOperation
  | contractViolation
deriving DecidableEq, Repr

/-- One shape of output each (10_state.md R36). Floats are binary32 bit patterns. -/
inductive Result where
  | bytes (out : Buffer)
  | frame (kind : FrameKind) (id : CanId) (dlc : BitVec 4) (payload : Buffer)
  | id (id : CanId)
  | idFields (ctype : BitVec 5) (mid hi lo : Byte)
  | f32 (x : Word)
  | u16 (n : Half)
  | feedback (host motor : Byte) (faults : BitVec 6) (mode : BitVec 2) (angle speed torque temp : Word)
  | param (host motor : Byte) (index : Half) (value : Bytes4)
deriving DecidableEq, Repr

/-- `Ok(result)`, or `Err(kind, errval)` with no result fields (10_state.md R35). -/
inductive Response where
  | ok (result : Result)
  | err (kind : ErrKind) (errval : BitVec 5)
deriving DecidableEq, Repr

/-- What the host agent can do to the block (10_state.md R46, 70_reset_and_hazards.md R280): present one request, take the
response that `RSP` holds, or reset the block. -/
inductive HostMove where
  | present (r : Request)
  | takeResponse
  | reset
deriving DecidableEq, Repr

/-- The block, its input, and the host agent as data: its coming moves say which agent moves next. -/
structure State where
  /-- `RSP`: the response of the most recent request, or none (10_state.md R32). -/
  rsp      : Option Response
  /-- The request in presentation, not yet answered (10_state.md R33, R44). -/
  port     : Option Presented
  /-- The moves the host has still to make, in order (10_state.md R33, R46): notes/assumptions/4.md. -/
  host     : List HostMove
  /-- The responses the host has taken, in order: the observation of a run (70_reset_and_hazards.md R286). -/
  observed : List Response
deriving DecidableEq, Repr

/-- Why the machine stops. The last three are faults of the model's own rules: notes/assumptions/8.md. -/
inductive Fault where
  /-- The host reads `RSP` while it is none (10_state.md R45). Raised by the host's move `takeResponse`. Safe. -/
  | rspEmpty
  /-- A rule reads past the end of a buffer (20_memory.md R62). Raised by `memRead`; no operation's rule does it. Safe. -/
  | readPastEnd
  /-- A rule writes its output out of order or with a gap (20_memory.md R63). Raised by `memWrite`; no operation's rule
  does it. Safe. -/
  | writeOutOfOrder
  /-- A rule rounds a NaN, for which rounding is not defined (44_quantization_lut.md R233). Raised by `roundHalfAway`; no
  operation's rule does it. Safe. -/
  | roundOfNaN
deriving DecidableEq, Repr

/-- Why an instruction has no meaning. -/
inductive Refusal where
  /-- The instruction is not modelled yet. Raised by `exec`'s own arms only, and at present by none. Safe. -/
  | notModelled (mnemonic : String)
deriving DecidableEq, Repr

/-- Right after reset (10_state.md R44, 70_reset_and_hazards.md R280): `RSP` is none and no request is in presentation. The
host has no move to make and has taken no response: notes/assumptions/4.md. -/
def State.reset : State := { rsp := none, port := none, host := [], observed := [] }

end Sys2Proof.Machine
end

