-- ==== Sys2Proof/Machine/Ops.lean ====
section
/-! DEFINITION. The shared operations: how an operation's rule ends (`return`, `raise`; 00_scope.md R9), its reads and
writes of byte buffers (20_memory.md R62, R63), and what a finished operation does to the state: write `RSP`
(10_state.md R33), or take an error (60_exceptions.md R250, R256). There is no return from an error: no operation returns
from one, and the next request starts with nothing carried over (R257). -/

namespace Sys2Proof.Machine

/-- How a rule ends without a result: it raises an error of the block, or it has met a fault of the model. -/
inductive Stop where
  | raise (kind : ErrKind) (errval : BitVec 5)
  | fault (f : Fault)
deriving DecidableEq, Repr

/-- A rule's computation: a value, or how it stopped. Nothing it computed before it stopped is visible (R9). -/
abbrev Op (α : Type) := Except Stop α

/-- `raise E(info)` (00_scope.md R9). -/
def raise {α : Type} (kind : ErrKind) (errval : BitVec 5 := 0) : Op α := .error (.raise kind errval)

/-- One check of a rule: the first check that fails decides the error (60_exceptions.md R255). -/
def check (ok : Prop) [Decidable ok] (kind : ErrKind) : Op Unit := if ok then .ok () else raise kind

/-- `MemRead(addr, n)`: a read past the end is a fault, never a value (20_memory.md R62). -/
def memRead (b : Buffer) (addr n : Nat) : Op Buffer :=
  if addr + n ≤ b.length then .ok ((b.drop addr).take n) else .error (.fault .readPastEnd)

/-- `in[i]`, one byte (00_scope.md R8), under the same rule as `memRead`. -/
def readByte (b : Buffer) (i : Nat) : Op Byte :=
  match b[i]? with
  | some v => .ok v
  | none => .error (.fault .readPastEnd)

/-- `MemWrite(addr, len(v), v)` on the output built so far: in increasing order with no gap, so at its end
(20_memory.md R63). -/
def memWrite (out : Buffer) (addr : Nat) (v : Buffer) : Op Buffer :=
  if addr = out.length then .ok (out ++ v) else .error (.fault .writeOutOfOrder)

/-- `out <- out ++ v`, which is a write at `len(out)` (20_memory.md R63). -/
def append (out v : Buffer) : Op Buffer := memWrite out out.length v

/-! What an operation does to the state. -/

/-- `RSP <- some r`, and nothing else (10_state.md R33). -/
def State.respond (s : State) (r : Response) : State := { s with rsp := some r }

/-- TAKING AN ERROR: `RSP <- some Err(kind, errval)` and nothing else; no handler, saved pc or mode (60_exceptions.md R250,
R256). -/
def State.takeError (s : State) (kind : ErrKind) (errval : BitVec 5) : State := s.respond (.err kind errval)

/-- The end of an operation: its result or its error becomes the response; a fault of the model stops the machine. -/
def finish (op : Op Result) (s : State) : Host.Outcome State Fault Refusal :=
  match op with
  | .ok v => .next (s.respond (.ok v))
  | .error (.raise kind errval) => .next (s.takeError kind errval)
  | .error (.fault f) => .fault f

/-- The answer to what spells no operation: an undefined operation select code is `IllegalOperation`, with no operand read
(30_encoding.md R101). At the two inner dispatch points the answer is the one their own tables give: no frame kind and an
identifier above 29 bits are `MalformedFrame` (40_slcan_frame_codec.md R131, R132, R133), and a type with no row is
`UnknownCommunicationType` (43_response_decoder.md R204): notes/assumptions/7.md. -/
def answerUndecoded (e : DecodeError) (s : State) : State :=
  match e with
  | .illegalOperation _ => s.takeError .illegalOperation 0
  | .emptyLine => s.takeError .malformedFrame 0
  | .noFrameKind _ => s.takeError .malformedFrame 0
  | .identifierTooWide _ => s.takeError .malformedFrame 0
  | .noCommunicationType ctype => s.takeError .unknownCommunicationType ctype

end Sys2Proof.Machine
end

