-- ==== Sys2Proof/Machine/Rom.lean ====
section
/-! DEFINITION. The two constant ROMs of the block (10_state.md R40, R41) and its fixed lengths (00_scope.md R6). They are
constants, not state: reset does not affect them and no operation writes them. -/

namespace Sys2Proof.Machine

/-- Marker, 8 identifier characters, DLC character (00_scope.md R6 `HDR_LEN`). -/
def HDR_LEN : Nat := 10

/-- `FRAME_LEN(dlc)` (00_scope.md R6). -/
def FRAME_LEN (dlc : Nat) : Nat := HDR_LEN + 2 * dlc

/-- 00_scope.md R6. -/
def MAX_DLC : Nat := 8

/-- The longest output (00_scope.md R6). -/
def OUT_CAP : Nat := FRAME_LEN MAX_DLC

/-- The one length DEC.RESPONSE accepts (00_scope.md R6, 90_conflicts.md C5). -/
def RSP_LEN : Nat := 26

/-- The largest communication type of a command (00_scope.md R6). -/
def CTYPE_MAX : Nat := 21

/-- The largest legal host id and motor id (00_scope.md R6). -/
def ID_MAX : Nat := 127

/-- The largest 29-bit identifier. -/
def CAN_ID_MAX : Nat := 0x1FFFFFFF

/-! The protocol constant ROM (10_state.md R41). -/

def MARK_EXT_DATA : Byte := 0x54
def CT_DEVICE_ID : BitVec 5 := 0
def CT_STATUS : BitVec 5 := 2
def CT_ENABLE : BitVec 5 := 3
def CT_DISABLE : BitVec 5 := 4
def CT_READ_PARAM : BitVec 5 := 17
def CT_WRITE_PARAM : BitVec 5 := 18
def IDX_RUN_MODE : Half := 0x7005
def IDX_SPD_REF : Half := 0x700A

/-! The LUT ROM (10_state.md R40), as binary32 bit patterns. -/

/-- The `min` of each entry. -/
def lutMin : Quantity → Word
  | .angle => 0xC1490FDB
  | .speed => 0xC1F00000
  | .torque => 0xC1400000
  | .temp => 0x00000000

/-- The `range` of each entry. That of temperature serves encoding only (92_eei_decisions.md D24). -/
def lutRange : Quantity → Word
  | .angle => 0x41C90FDB
  | .speed => 0x42700000
  | .torque => 0x41C00000
  | .temp => 0x45CCCC00

end Sys2Proof.Machine
end

