-- ==== Sys2Proof/Machine/Operands.lean ====
section
/-! DEFINITION. Every operand and wire form: hex characters (00_scope.md R11, 40_slcan_frame_codec.md R120-R124), identifier
fields (41_identifier_packer.md R150, R153), and the byte orders of multi-byte values (20_memory.md R65,
30_encoding.md R88). -/

namespace Sys2Proof.Machine

/-! Hex characters. -/

/-- `HEXU(n)`, the upper-case digit (00_scope.md R11). -/
def hexU (n : BitVec 4) : Byte := if n.toNat ≤ 9 then 0x30 + n.setWidth 8 else 0x41 + (n.setWidth 8 - 10)

/-- `isHex(c)` (40_slcan_frame_codec.md R120). -/
def isHex (c : Byte) : Bool :=
  (0x30 ≤ c.toNat && c.toNat ≤ 0x39) || (0x41 ≤ c.toNat && c.toNat ≤ 0x46) || (0x61 ≤ c.toNat && c.toNat ≤ 0x66)

/-- `hexval(c)`: a 4-bit value, defined only when `isHex(c)` (40_slcan_frame_codec.md R121). -/
def hexval (c : Byte) : Option (BitVec 4) :=
  if 0x30 ≤ c.toNat ∧ c.toNat ≤ 0x39 then some (BitVec.ofNat 4 (c.toNat - 0x30))
  else if 0x41 ≤ c.toNat ∧ c.toNat ≤ 0x46 then some (BitVec.ofNat 4 (c.toNat - 0x41 + 10))
  else if 0x61 ≤ c.toNat ∧ c.toNat ≤ 0x66 then some (BitVec.ofNat 4 (c.toNat - 0x61 + 10))
  else none

/-- One character of an expected hex region (40_slcan_frame_codec.md R132). -/
def hexDigit (c : Byte) : Op (BitVec 4) :=
  match hexval c with
  | some d => .ok d
  | none => raise .invalidHexDigit

/-- A whole expected hex region, in order. -/
def hexDigits : Buffer → Op (List (BitVec 4))
  | [] => .ok []
  | c :: cs => do
    let d ← hexDigit c
    let ds ← hexDigits cs
    return d :: ds

/-- `ParseHex`, the first digit most significant (40_slcan_frame_codec.md R123). -/
def parseHex (ds : List (BitVec 4)) : Nat := ds.foldl (fun v d => v * 16 + d.toNat) 0

/-- `HexByte(b)`, high nibble first (40_slcan_frame_codec.md R122). -/
def hexByte (b : Byte) : Buffer := [hexU (b.extractLsb' 4 4), hexU (b.extractLsb' 0 4)]

/-- `HexId(id)`, eight digits from bit 31 down (40_slcan_frame_codec.md R124, 30_encoding.md R81). -/
def hexId (w : Word) : Buffer :=
  [hexU (w.extractLsb' 28 4), hexU (w.extractLsb' 24 4), hexU (w.extractLsb' 20 4), hexU (w.extractLsb' 16 4),
   hexU (w.extractLsb' 12 4), hexU (w.extractLsb' 8 4), hexU (w.extractLsb' 4 4), hexU (w.extractLsb' 0 4)]

/-- The bytes that pairs of digits spell, high nibble first (40_slcan_frame_codec.md R132). -/
def pairBytes : List (BitVec 4) → Buffer
  | hi :: lo :: ds => BitVec.ofNat 8 (hi.toNat * 16 + lo.toNat) :: pairBytes ds
  | _ => []

/-! Identifier fields. -/

/-- `id[28:24]` (41_identifier_packer.md R150, R153 `CType`). -/
def CanId.ctype (id : CanId) : BitVec 5 := id.extractLsb' 24 5

/-- `id[23:16]` (41_identifier_packer.md R150). -/
def CanId.mid (id : CanId) : Byte := id.extractLsb' 16 8

/-- `id[15:8]` (41_identifier_packer.md R150). -/
def CanId.hi (id : CanId) : Byte := id.extractLsb' 8 8

/-- `id[7:0]` (41_identifier_packer.md R150). -/
def CanId.lo (id : CanId) : Byte := id.extractLsb' 0 8

/-- `ReplyMode(id)` (41_identifier_packer.md R153). -/
def CanId.replyMode (id : CanId) : BitVec 2 := id.extractLsb' 22 2

/-- `ReplyFaults(id)` (41_identifier_packer.md R153). -/
def CanId.replyFaults (id : CanId) : BitVec 6 := id.extractLsb' 16 6

/-- `ReplyMotor(id)` (41_identifier_packer.md R153). -/
def CanId.replyMotor (id : CanId) : Byte := id.extractLsb' 8 8

/-- `ReplyHost(id)` (41_identifier_packer.md R153). -/
def CanId.replyHost (id : CanId) : Byte := id.extractLsb' 0 8

/-- The identifier of a command: bits 23-16 are 0 (30_encoding.md R88, 41_identifier_packer.md R151). -/
def commandId (ctype : BitVec 5) (host motor : Byte) : CanId :=
  (ctype.setWidth 29 <<< 24) ||| (host.setWidth 29 <<< 8) ||| motor.setWidth 29

/-! Multi-byte values (20_memory.md R65, 30_encoding.md R88). -/

/-- A little-endian 16-bit value, low byte first: the parameter index. -/
def halfLE (b0 b1 : Byte) : Half := b0.setWidth 16 ||| (b1.setWidth 16 <<< 8)

/-- A big-endian 16-bit value, high byte first: a feedback raw word. -/
def halfBE (b0 b1 : Byte) : Half := (b0.setWidth 16 <<< 8) ||| b1.setWidth 16

/-- A type-18 payload: `IndexBytes(index)` (42_command_encoder.md R170), then four value bytes. -/
def writePayload (index : Half) (v0 v1 v2 v3 : Byte) : Bytes8 :=
  ⟨index.extractLsb' 0 8, index.extractLsb' 8 8, 0, 0, v0, v1, v2, v3⟩

/-- `IndexBytes(index) ++ FloatBytes(value)`, the float little-endian (42_command_encoder.md R170, R171). -/
def floatPayload (index : Half) (value : Word) : Bytes8 :=
  writePayload index (value.extractLsb' 0 8) (value.extractLsb' 8 8) (value.extractLsb' 16 8) (value.extractLsb' 24 8)

end Sys2Proof.Machine
end

