-- ==== Sys2Proof/Machine/FrameCodec.lean ====
section
/-! DEFINITION. The SLCAN frame codec: FRAME.ENC, FRAME.DEC, and the four marker rows that FRAME.DEC dispatches on
(40_slcan_frame_codec.md R130-R134). -/

namespace Sys2Proof.Machine

/-- Append each byte as two hex characters, in order (40_slcan_frame_codec.md R130). -/
def appendHex (out : Buffer) : List Byte → Op Buffer
  | [] => .ok out
  | b :: bs => do
    let out ← append out (hexByte b)
    appendHex out bs

/-- FRAME.ENC's rule (40_slcan_frame_codec.md R130). -/
def frameEnc (kind : FrameKind) (id : Word) (plen : BitVec 4) (payload : Bytes8) : Op Result := do
  check (kind = .extData) .unsupportedFrameKind
  check (id.toNat ≤ CAN_ID_MAX) .contractViolation
  check (plen.toNat ≤ MAX_DLC) .contractViolation
  let out ← append [] [MARK_EXT_DATA]
  let out ← append out (hexId id)
  let out ← append out [hexU plen]
  let out ← appendHex out (payload.toList.take plen.toNat)
  return .bytes out

/-- A decoded SLCAN frame (10_state.md R36 `Frame`). -/
structure DecodedFrame where
  kind    : FrameKind
  id      : CanId
  dlc     : BitVec 4
  payload : Buffer
deriving DecidableEq, Repr

/-- FRAME.DEC's rule from the length check after the marker on (40_slcan_frame_codec.md R132). -/
def decodeMarked (input : Buffer) : Op DecodedFrame := do
  check (HDR_LEN ≤ input.length) .malformedFrame
  let idDigits ← hexDigits (← memRead input 1 8)
  check (parseHex idDigits ≤ CAN_ID_MAX) .malformedFrame
  let dlc ← hexDigit (← readByte input 9)
  check (dlc.toNat ≤ MAX_DLC) .malformedFrame
  check (input.length = FRAME_LEN dlc.toNat) .malformedFrame
  let digits ← hexDigits (← memRead input 10 (2 * dlc.toNat))
  return { kind := .extData, id := BitVec.ofNat 29 (parseHex idDigits), dlc := dlc, payload := pairBytes digits }

/-- What the decoder does with a line of each marker (40_slcan_frame_codec.md R131). -/
def decodeByKind (kind : Option FrameKind) (input : Buffer) : Op DecodedFrame :=
  match kind with
  | some .extData => decodeMarked input
  | some .stdData => raise .unsupportedFrameKind
  | some .extRemote => raise .unsupportedFrameKind
  | some .stdRemote => raise .unsupportedFrameKind
  | none => raise .malformedFrame

/-- FRAME.DEC's rule (40_slcan_frame_codec.md R132). -/
def frameDec (input : Buffer) : Op DecodedFrame := do
  check (input.length ≠ 0) .malformedFrame
  let m ← readByte input 0
  decodeByKind (marker m) input

/-- The decoded fields as a result (10_state.md R36). -/
def DecodedFrame.result (f : DecodedFrame) : Result := .frame f.kind f.id f.dlc f.payload

/-- A decoded frame, or the error of decoding it, as the end of an operation. -/
def frameResult (op : Op DecodedFrame) : Op Result := do
  let f ← op
  return f.result

/-- FRAME.ENC (40_slcan_frame_codec.md R130). -/
def execFrameEnc (kind : FrameKind) (id : Word) (plen : BitVec 4) (payload : Bytes8) (s : State) :
    Host.Outcome State Fault Refusal := finish (frameEnc kind id plen payload) s

/-- FRAME.DEC (40_slcan_frame_codec.md R132). -/
def execFrameDec (input : Buffer) (s : State) : Host.Outcome State Fault Refusal := finish (frameResult (frameDec input)) s

/-- MARK.T: the marker is accepted, and the line is decoded (40_slcan_frame_codec.md R131, R132). -/
def execMarkExtData (rest : Buffer) (s : State) : Host.Outcome State Fault Refusal :=
  finish (frameResult (decodeByKind (some .extData) (FrameKind.extData.markByte :: rest))) s

/-- MARK.t: a standard-data frame is not supported, whatever follows (40_slcan_frame_codec.md R131). -/
def execMarkStdData (rest : Buffer) (s : State) : Host.Outcome State Fault Refusal :=
  finish (frameResult (decodeByKind (some .stdData) (FrameKind.stdData.markByte :: rest))) s

/-- MARK.R: an extended-remote frame is not supported, whatever follows (40_slcan_frame_codec.md R131). -/
def execMarkExtRemote (rest : Buffer) (s : State) : Host.Outcome State Fault Refusal :=
  finish (frameResult (decodeByKind (some .extRemote) (FrameKind.extRemote.markByte :: rest))) s

/-- MARK.r: a standard-remote frame is not supported, whatever follows (40_slcan_frame_codec.md R131). -/
def execMarkStdRemote (rest : Buffer) (s : State) : Host.Outcome State Fault Refusal :=
  finish (frameResult (decodeByKind (some .stdRemote) (FrameKind.stdRemote.markByte :: rest))) s

end Sys2Proof.Machine
end

