-- ==== Sys2Proof/Machine/IdPacker.lean ====
section
/-! DEFINITION. The CAN identifier field packer: ID.PACK and ID.UNPACK (41_identifier_packer.md R151, R152). -/

namespace Sys2Proof.Machine

/-- The id check of every operation that builds an identifier: never truncated, masked or clamped
(41_identifier_packer.md R151, R155). -/
def checkIds (host motor : Byte) : Op Unit := check (host.toNat ≤ ID_MAX ∧ motor.toNat ≤ ID_MAX) .idOutOfRange

/-- ID.PACK's rule (41_identifier_packer.md R151). -/
def idPack (ctype : BitVec 5) (host motor : Byte) : Op Result := do
  checkIds host motor
  check (ctype.toNat ≤ CTYPE_MAX) .contractViolation
  return .id (commandId ctype host motor)

/-- ID.UNPACK's rule: every identifier splits, with no range check (41_identifier_packer.md R152). -/
def idUnpack (id : CanId) : Op Result := return .idFields (CanId.ctype id) (CanId.mid id) (CanId.hi id) (CanId.lo id)

/-- ID.PACK (41_identifier_packer.md R151). -/
def execIdPack (ctype : BitVec 5) (host motor : Byte) (s : State) : Host.Outcome State Fault Refusal :=
  finish (idPack ctype host motor) s

/-- ID.UNPACK (41_identifier_packer.md R152). -/
def execIdUnpack (id : CanId) (s : State) : Host.Outcome State Fault Refusal := finish (idUnpack id) s

end Sys2Proof.Machine
end

