-- ==== Sys2Proof/Machine/CommandEncoder.lean ====
section
/-! DEFINITION. The command encoder: the four ENC operations and the three communication types the block emits
(42_command_encoder.md R170-R177, 30_encoding.md R85). -/

namespace Sys2Proof.Machine

/-- `Command(ctype, host, motor, payload)`, the shared builder: `plen` payload bytes (42_command_encoder.md R172). -/
def command (ctype : BitVec 5) (host motor : Byte) (plen : BitVec 4) (payload : Bytes8) : Op Result := do
  checkIds host motor
  frameEnc .extData ((commandId ctype host motor).setWidth 32) plen payload

/-- ENC.ENABLE (42_command_encoder.md R173). -/
def execEncEnable (host motor : Byte) (s : State) : Host.Outcome State Fault Refusal :=
  finish (command CT_ENABLE host motor 0 Bytes8.zero) s

/-- ENC.DISABLE (42_command_encoder.md R174). -/
def execEncDisable (host motor : Byte) (s : State) : Host.Outcome State Fault Refusal :=
  finish (command CT_DISABLE host motor 0 Bytes8.zero) s

/-- ENC.RUN_MODE (42_command_encoder.md R175). -/
def execEncRunMode (host motor : Byte) (mode : RunMode) (s : State) : Host.Outcome State Fault Refusal :=
  finish (command CT_WRITE_PARAM host motor 8 (writePayload IDX_RUN_MODE (mode.code.setWidth 8) 0 0 0)) s

/-- ENC.WRITE_FLOAT: every bit pattern is sent unchanged (42_command_encoder.md R176, R177). -/
def execEncWriteFloat (host motor : Byte) (index : Half) (value : Word) (s : State) : Host.Outcome State Fault Refusal :=
  finish (command CT_WRITE_PARAM host motor 8 (floatPayload index value)) s

/-- CT3.ENABLE: the command frame of type 3, with no payload (42_command_encoder.md R172, R173). -/
def execCt3Enable (host motor : Byte) (s : State) : Host.Outcome State Fault Refusal :=
  finish (command 3 host motor 0 Bytes8.zero) s

/-- CT4.DISABLE: the command frame of type 4, with no payload (42_command_encoder.md R172, R174). -/
def execCt4Disable (host motor : Byte) (s : State) : Host.Outcome State Fault Refusal :=
  finish (command 4 host motor 0 Bytes8.zero) s

/-- CT18.WRITE_PARAM: the command frame of type 18, an index and four value bytes (42_command_encoder.md R172, R176). -/
def execCt18WriteParam (host motor : Byte) (index : Half) (value : Word) (s : State) : Host.Outcome State Fault Refusal :=
  finish (command 18 host motor 8 (floatPayload index value)) s

end Sys2Proof.Machine
end

