-- ==== Sys2Proof/Machine/Float.lean ====
section
/-! DEFINITION. binary32 arithmetic (00_scope.md R10): each operation rounds its exact result once to nearest, ties to even;
subnormals are ordinary values and nothing is flushed to zero (92_eei_decisions.md D21, D36). The format itself is that of
IEEE-754, which the spec takes from general knowledge (R10): notes/assumptions/5.md. -/

namespace Sys2Proof.Machine

/-- A binary32 value. `fin neg mag` is `± mag · 2^-149`: every finite binary32 value is a whole number of that unit.
`nan neg k` is the NaN with that sign and the nonzero fraction `k + 1`. -/
inductive F32 where
  | nan (neg : Bool) (k : Fin 0x7FFFFF)
  | inf (neg : Bool)
  | fin (neg : Bool) (mag : Nat)
deriving DecidableEq, Repr

namespace F32

/-- The magnitude pattern of infinity: the first pattern above the finite ones. -/
def infPattern : Nat := 0x7F800000

/-- The unit count of a finite magnitude pattern `w` (8 exponent bits, 23 fraction bits). -/
def magOfPattern (w : Nat) : Nat :=
  if w < 2 ^ 23 then w else (2 ^ 23 + w % 2 ^ 23) * 2 ^ (w / 2 ^ 23 - 1)

/-- The magnitude pattern nearest to `num / den` units, ties to even. A value of at least `2^24` units keeps 24 significant
bits, so patterns step by `2^e` units; below that they step by one. `infPattern` or more is an overflow. -/
def roundPattern (num den : Nat) : Nat :=
  let e := (num / den).log2 - 23
  let step := den * 2 ^ e
  let n := num / step
  let rest := num % step
  e * 2 ^ 23 + n + (if step < 2 * rest ∨ (2 * rest = step ∧ n % 2 = 1) then 1 else 0)

/-- `f32(x)` for the real `x = ± num / den` units (00_scope.md R10): overflow gives an infinity. -/
def ofRat (neg : Bool) (num den : Nat) : F32 :=
  if roundPattern num den < infPattern then .fin neg (magOfPattern (roundPattern num den)) else .inf neg

/-- `fromBits32(w)` (00_scope.md R10). -/
def fromBits32 (w : Word) : F32 :=
  if w.toNat % 2 ^ 31 < infPattern then .fin w.msb (magOfPattern (w.toNat % 2 ^ 31))
  else if w.toNat % 2 ^ 31 = infPattern then .inf w.msb
  else .nan w.msb (Fin.ofNat 0x7FFFFF (w.toNat % 2 ^ 31 - infPattern - 1))

/-- The sign bit of a pattern, as a number. -/
def signBit (neg : Bool) : Nat := if neg then 2 ^ 31 else 0

/-- `bits32(x)`, the inverse of `fromBits32` (00_scope.md R10). -/
def bits32 : F32 → Word
  | .nan neg k => BitVec.ofNat 32 (signBit neg + infPattern + 1 + k.val)
  | .inf neg => BitVec.ofNat 32 (signBit neg + infPattern)
  | .fin neg mag => BitVec.ofNat 32 (signBit neg + roundPattern mag 1)

/-- `isFinite(x)`: false for NaN and both infinities (00_scope.md R10). -/
def isFinite : F32 → Bool
  | .nan _ _ => false
  | .inf _ => false
  | .fin _ _ => true

/-- Whether a value is a NaN. -/
def isNaN : F32 → Bool
  | .nan _ _ => true
  | .inf _ => false
  | .fin _ _ => false

/-- The NaN that an operation makes of two operands: which one is a free value, notes/assumptions/2.md. -/
def nanResult (op : FloatOp) (a b : F32) : F32 :=
  .nan (Config.nanSign op (bits32 a) (bits32 b)) (Config.nanFraction op (bits32 a) (bits32 b))

/-- `toF32(n)` (00_scope.md R10). -/
def toF32 (n : Nat) : F32 := ofRat false (n * 2 ^ 149) 1

/-- The value with its sign changed. -/
def negate : F32 → F32
  | .nan neg k => .nan (!neg) k
  | .inf neg => .inf (!neg)
  | .fin neg mag => .fin (!neg) mag

/-- The sum of two values, `invalid` where IEEE-754 makes a NaN. An exact sum of zero from unlike signs is `+0`. -/
def sum (invalid : F32) : F32 → F32 → F32
  | .nan _ _, _ => invalid
  | _, .nan _ _ => invalid
  | .inf a, .inf b => if a = b then .inf a else invalid
  | .inf a, .fin _ _ => .inf a
  | .fin _ _, .inf b => .inf b
  | .fin a x, .fin b y =>
    if a = b then ofRat a (x + y) 1
    else if x = y then .fin false 0
    else if y < x then ofRat a (x - y) 1
    else ofRat b (y - x) 1

/-- `a +f b` (00_scope.md R10). -/
def add (a b : F32) : F32 := sum (nanResult .add a b) a b

/-- `a -f b` (00_scope.md R10). -/
def sub (a b : F32) : F32 := sum (nanResult .sub a b) a (negate b)

/-- `a *f b` (00_scope.md R10). -/
def mul (u v : F32) : F32 :=
  match u, v with
  | .nan _ _, _ => nanResult .mul u v
  | _, .nan _ _ => nanResult .mul u v
  | .inf a, .inf b => .inf (a ^^ b)
  | .inf a, .fin b y => if y = 0 then nanResult .mul u v else .inf (a ^^ b)
  | .fin a x, .inf b => if x = 0 then nanResult .mul u v else .inf (a ^^ b)
  | .fin a x, .fin b y => ofRat (a ^^ b) (x * y) (2 ^ 149)

/-- `a /f b` (00_scope.md R10). -/
def div (u v : F32) : F32 :=
  match u, v with
  | .nan _ _, _ => nanResult .div u v
  | _, .nan _ _ => nanResult .div u v
  | .inf _, .inf _ => nanResult .div u v
  | .inf a, .fin b _ => .inf (a ^^ b)
  | .fin a _, .inf b => .fin (a ^^ b) 0
  | .fin a x, .fin b y =>
    if y = 0 then (if x = 0 then nanResult .div u v else .inf (a ^^ b)) else ofRat (a ^^ b) (x * 2 ^ 149) y

end F32

/-- An integer, or an infinity that rounding leaves as it is (44_quantization_lut.md R233). -/
inductive Rounded where
  | negInf
  | posInf
  | int (z : Int)
deriving DecidableEq, Repr

/-- `RoundHalfAway(t)`, the nearest integer, halves away from zero; not defined on NaN (44_quantization_lut.md R233). -/
def roundHalfAway : F32 → Op Rounded
  | .nan _ _ => .error (.fault .roundOfNaN)
  | .inf true => .ok .negInf
  | .inf false => .ok .posInf
  | .fin true mag => .ok (.int (-(((mag + 2 ^ 148) / 2 ^ 149 : Nat) : Int)))
  | .fin false mag => .ok (.int (((mag + 2 ^ 148) / 2 ^ 149 : Nat) : Int))

/-- `Clamp(r)` to `[0, 65535]` (44_quantization_lut.md R234). -/
def clamp : Rounded → Half
  | .negInf => 0
  | .posInf => 65535
  | .int z => if z < 0 then 0 else if 65535 < z then 65535 else BitVec.ofNat 16 z.toNat

end Sys2Proof.Machine
end

