-- ==== Sys2Proof/Machine/Quantization.lean ====
section
/-! DEFINITION. The linear quantization LUT: Q.DEC and Q.ENC (44_quantization_lut.md R230-R236). -/

namespace Sys2Proof.Machine

/-- `QDecode(q, raw)`: linear in three roundings for angle, speed and torque (44_quantization_lut.md R230), and `raw / 10` for
temperature (R231). -/
def qDecode (q : Quantity) (raw : Half) : F32 :=
  match q with
  | .temp => F32.div (F32.toF32 raw.toNat) (F32.toF32 10)
  | _ =>
    F32.add (F32.div (F32.mul (F32.toF32 raw.toNat) (F32.fromBits32 (lutRange q))) (F32.toF32 65535))
      (F32.fromBits32 (lutMin q))

/-- `((x -f min) *f 65535.0) /f range` (44_quantization_lut.md R232). -/
def qScaled (q : Quantity) (x : F32) : F32 :=
  F32.div (F32.mul (F32.sub x (F32.fromBits32 (lutMin q))) (F32.toF32 65535)) (F32.fromBits32 (lutRange q))

/-- `QEncode(q, value)` (44_quantization_lut.md R232). -/
def qEncode (q : Quantity) (value : Word) : Op Half := do
  check (F32.isFinite (F32.fromBits32 value) = true) .invalidNumericValue
  let r ← roundHalfAway (qScaled q (F32.fromBits32 value))
  return clamp r

/-- Q.DEC's rule (44_quantization_lut.md R235). -/
def qDec (q : Quantity) (raw : Half) : Op Result := return .f32 (F32.bits32 (qDecode q raw))

/-- Q.ENC's rule (44_quantization_lut.md R236). -/
def qEnc (q : Quantity) (value : Word) : Op Result := do
  let n ← qEncode q value
  return .u16 n

/-- Q.DEC (44_quantization_lut.md R235). -/
def execQDec (q : Quantity) (raw : Half) (s : State) : Host.Outcome State Fault Refusal := finish (qDec q raw) s

/-- Q.ENC (44_quantization_lut.md R236). -/
def execQEnc (q : Quantity) (value : Word) (s : State) : Host.Outcome State Fault Refusal := finish (qEnc q value) s

end Sys2Proof.Machine
end

