-- ==== Sys2Proof/Machine/ResponseDecoder.lean ====
section
/-! DEFINITION. The response decoder: DEC.RESPONSE and the three communication types it dispatches on
(43_response_decoder.md R200-R208). -/

namespace Sys2Proof.Machine

/-- `bits32(QDecode(q, raw))` of the big-endian raw word at payload bytes `i` and `i + 1` (43_response_decoder.md R205). -/
def feedbackField (q : Quantity) (p : Buffer) (i : Nat) : Op Word := do
  let hi ← readByte p i
  let lo ← readByte p (i + 1)
  return F32.bits32 (qDecode q (halfBE hi lo))

/-- `DecodeFeedback(id, p)` (43_response_decoder.md R205). -/
def decodeFeedback (id : CanId) (p : Buffer) : Op Result := do
  let angle ← feedbackField .angle p 0
  let speed ← feedbackField .speed p 2
  let torque ← feedbackField .torque p 4
  let temp ← feedbackField .temp p 6
  return .feedback (CanId.replyHost id) (CanId.replyMotor id) (CanId.replyFaults id) (CanId.replyMode id) angle speed torque temp

/-- `DecodeParam(id, p)`: `p[2]`, `p[3]` and `id[23:16]` are not read (43_response_decoder.md R207). -/
def decodeParam (id : CanId) (p : Buffer) : Op Result := do
  let p0 ← readByte p 0
  let p1 ← readByte p 1
  let p4 ← readByte p 4
  let p5 ← readByte p 5
  let p6 ← readByte p 6
  let p7 ← readByte p 7
  return .param (CanId.replyHost id) (CanId.replyMotor id) (halfLE p0 p1) ⟨p4, p5, p6, p7⟩

/-- The dispatch of DEC.RESPONSE on the communication type (43_response_decoder.md R202-R204). -/
def dispatchReply (id : CanId) (p : Buffer) : Op Result :=
  if CanId.ctype id = CT_STATUS then decodeFeedback id p
  else if CanId.ctype id = CT_READ_PARAM then decodeParam id p
  else if CanId.ctype id = CT_DEVICE_ID then raise .notImplemented
  else raise .unknownCommunicationType (CanId.ctype id)

/-- DEC.RESPONSE's rule (43_response_decoder.md R200). -/
def decResponse (input : Buffer) : Op Result := do
  check (input.length = RSP_LEN) .malformedFrame
  let f ← frameDec input
  check (f.dlc = 8) .malformedFrame
  dispatchReply f.id f.payload

/-- The identifier of a reply (30_encoding.md R84). -/
def replyId (ctype : BitVec 5) (mid motor host : Byte) : CanId := ctype ++ mid ++ motor ++ host

/-- DEC.RESPONSE (43_response_decoder.md R200). -/
def execDecResponse (input : Buffer) (s : State) : Host.Outcome State Fault Refusal := finish (decResponse input) s

/-- CT2.STATUS_REPORT: the reply decodes to a `Feedback` (43_response_decoder.md R205). -/
def execCt2StatusReport (mode : BitVec 2) (faults : BitVec 6) (motor host : Byte) (payload : Bytes8) (s : State) :
    Host.Outcome State Fault Refusal := finish (decodeFeedback (replyId 2 (mode ++ faults) motor host) payload.toList) s

/-- CT17.READ_PARAM: the reply decodes to a `Param` (43_response_decoder.md R207). -/
def execCt17ReadParam (mid : Byte) (motor host : Byte) (payload : Bytes8) (s : State) :
    Host.Outcome State Fault Refusal := finish (decodeParam (replyId 17 mid motor host) payload.toList) s

/-- CT0.DEVICE_ID: an explicit stub, which decodes none of its fields (43_response_decoder.md R203). -/
def execCt0DeviceId (low : BitVec 24) (payload : Bytes8) (s : State) : Host.Outcome State Fault Refusal :=
  finish (dispatchReply ((0 : BitVec 5) ++ low) payload.toList) s

end Sys2Proof.Machine
end

