-- ==== Sys2Proof/Machine/Dispatch.lean ====
section
/-! DEFINITION. One arm per instruction, each one call of its meaning. -/

namespace Sys2Proof.Machine

def exec (i : Instr) (s : State) : Host.Outcome State Fault Refusal :=
  match i with
  | .frameEnc kind id plen payload => Sys2Proof.Machine.execFrameEnc kind id plen payload s
  | .frameDec input => Sys2Proof.Machine.execFrameDec input s
  | .idPack ctype host motor => Sys2Proof.Machine.execIdPack ctype host motor s
  | .idUnpack id => Sys2Proof.Machine.execIdUnpack id s
  | .qDec q raw => Sys2Proof.Machine.execQDec q raw s
  | .qEnc q value => Sys2Proof.Machine.execQEnc q value s
  | .encEnable host motor => Sys2Proof.Machine.execEncEnable host motor s
  | .encDisable host motor => Sys2Proof.Machine.execEncDisable host motor s
  | .encRunMode host motor mode => Sys2Proof.Machine.execEncRunMode host motor mode s
  | .encWriteFloat host motor index value => Sys2Proof.Machine.execEncWriteFloat host motor index value s
  | .decResponse input => Sys2Proof.Machine.execDecResponse input s
  | .markExtData rest => Sys2Proof.Machine.execMarkExtData rest s
  | .markStdData rest => Sys2Proof.Machine.execMarkStdData rest s
  | .markExtRemote rest => Sys2Proof.Machine.execMarkExtRemote rest s
  | .markStdRemote rest => Sys2Proof.Machine.execMarkStdRemote rest s
  | .ct3Enable host motor => Sys2Proof.Machine.execCt3Enable host motor s
  | .ct4Disable host motor => Sys2Proof.Machine.execCt4Disable host motor s
  | .ct18WriteParam host motor index value => Sys2Proof.Machine.execCt18WriteParam host motor index value s
  | .ct2StatusReport mode faults motor host payload => Sys2Proof.Machine.execCt2StatusReport mode faults motor host payload s
  | .ct17ReadParam mid motor host payload => Sys2Proof.Machine.execCt17ReadParam mid motor host payload s
  | .ct0DeviceId low payload => Sys2Proof.Machine.execCt0DeviceId low payload s

end Sys2Proof.Machine
end

