-- ==== Sys2Proof/Machine/HostInterface.lean ====
section
/-! DEFINITION. The two agents (10_state.md R33): the block answering what stands at its input, and the host's moves
(R46, R45; 70_reset_and_hazards.md R280), with the rule that says which of them moves next. -/

namespace Sys2Proof.Machine

/-- The block's step: perform the whole request and write its response (10_state.md R33, 30_encoding.md R101). -/
def perform (p : Presented) (s : State) : Host.Outcome State Fault Refusal :=
  match decode p with
  | .ok i => exec i s
  | .error e => .next (answerUndecoded e s)

/-- Reset: `RSP <- none`, and a request not yet answered is discarded (70_reset_and_hazards.md R280, 10_state.md R44). -/
def State.applyReset (s : State) : State := { s with rsp := none, port := none }

/-- The host's read of `RSP`: a fault while it is none (10_state.md R45). It changes nothing in the block. -/
def takeResponse (s : State) : Host.Outcome State Fault Refusal :=
  match s.rsp with
  | some r => .next { s with observed := s.observed ++ [r] }
  | none => .fault .rspEmpty

/-- One move of the host (10_state.md R46). -/
def hostMove (m : HostMove) (s : State) : Host.Outcome State Fault Refusal :=
  match m with
  | .present r => .next { s with port := some (.request r) }
  | .takeResponse => takeResponse s
  | .reset => .next s.applyReset

/-- Who moves next. -/
inductive Turn where
  | host (m : HostMove) (rest : List HostMove)
  | block (p : Presented)
  | idle
deriving DecidableEq, Repr

/-- The block answers a presented request before the host goes on: one request at a time (70_reset_and_hazards.md R284).
A reset alone does not wait, so it can discard a request in presentation (R280). With nothing presented and no move to
come, the block is idle (60_exceptions.md R264). -/
def turn (s : State) : Turn :=
  match s.host, s.port with
  | .reset :: rest, _ => .host .reset rest
  | _, some p => .block p
  | m :: rest, none => .host m rest
  | [], none => .idle

/-- One step of whichever agent moves next. -/
def agentStep (s : State) : Host.Outcome State Fault Refusal :=
  match turn s with
  | .host m rest => hostMove m { s with host := rest }
  | .block p => perform p { s with port := none }
  | .idle => .next s

/-- The host's coming moves with no reset at their head. -/
def withoutPendingReset : List HostMove → List HostMove
  | .reset :: rest => withoutPendingReset rest
  | moves => moves

/-- The state with a record at the block's input, so that the block answers it next. -/
def State.withPresented (s : State) (p : Presented) : State :=
  { s with port := some p, host := withoutPendingReset s.host }

end Sys2Proof.Machine
end

