-- ==== Sys2Proof/Machine/Step.lean ====
section
/-! DEFINITION. The machine's step. The block fetches nothing: what it runs next is the record at its input
(10_state.md R31, R33). -/

namespace Sys2Proof.Machine

/-- One step of the machine (10_state.md R33). -/
def step (s : State) : Host.Outcome State Fault Refusal := agentStep s

/-- The state in which the very next step runs a word of opcode_table.json: the word stands at the block's input, and no
reset is about to discard it. -/
def State.withFetchWord (s : State) (nbits w : Nat) : State := s.withPresented (tableWord nbits w)

end Sys2Proof.Machine
end

