-- ==== Sys2Proof/Machine/Assembler.lean ====
section
/-! DEFINITION. The text form of a request, one per line, and the two pseudo-operations (30_encoding.md R104, R105). A line
that spells a field's value beyond its width has no form, since such a value cannot be presented (10_state.md R34). The
grammar of a decimal literal is read from the spec's examples: notes/assumptions/6.md. -/

namespace Sys2Proof.Machine

/-! Pseudo-operations (30_encoding.md R105). -/

/-- `ENC.SPEED_REF <h>, <m>, <v>` is `ENC.WRITE_FLOAT <h>, <m>, 0x700A, <v>`. -/
def encSpeedRef (host motor : Byte) (value : Word) : Instr := .encWriteFloat host motor IDX_SPD_REF value

/-- `ENC.SPEED_MODE <h>, <m>` is `ENC.RUN_MODE <h>, <m>, SPEED`. -/
def encSpeedMode (host motor : Byte) : Instr := .encRunMode host motor .speed

/-! Tokens. -/

inductive Token where
  | word (cs : List Char)
  | comma
  | openList
  | closeList
  | buffer (b : Buffer)
deriving DecidableEq, Repr

/-- The byte of an ASCII character. -/
def charByte (c : Char) : Byte := BitVec.ofNat 8 c.toNat

/-- The value of a hex digit character, if it is one (40_slcan_frame_codec.md R121). -/
def charHex (c : Char) : Option Nat := if c.toNat < 128 then (hexval (charByte c)).map BitVec.toNat else none

/-- The value of a decimal digit character. -/
def charDigit (c : Char) : Option Nat := if 0x30 ≤ c.toNat ∧ c.toNat ≤ 0x39 then some (c.toNat - 0x30) else none

/-- The byte two hex digit characters spell. -/
def hexPair (h l : Char) : Option Byte := do
  let a ← charHex h
  let b ← charHex l
  return BitVec.ofNat 8 (a * 16 + b)

/-- The rest of a double-quoted buffer, with `\r` for 0x0D and `\xHH` for any byte. -/
def lexQuoted : List Char → Option (Buffer × List Char)
  | [] => none
  | '"' :: cs => some ([], cs)
  | '\\' :: 'r' :: cs => do
    let (b, cs) ← lexQuoted cs
    return (0x0D :: b, cs)
  | '\\' :: 'x' :: h :: l :: cs => do
    let v ← hexPair h l
    let (b, cs) ← lexQuoted cs
    return (v :: b, cs)
  | c :: cs => do
    let (b, cs) ← lexQuoted cs
    if c.toNat < 128 ∧ c ≠ '\\' then return (charByte c :: b, cs) else none

/-- The opening brace of a buffer written as hex bytes. -/
def openBrace : Char := Char.ofNat 0x7B

/-- Its closing brace. -/
def closeBrace : Char := Char.ofNat 0x7D

/-- The rest of a buffer written as hex bytes, up to its closing brace. -/
def lexBraced : List Char → Option (Buffer × List Char)
  | [] => none
  | [c] => if c = closeBrace then some ([], []) else none
  | h :: l :: cs =>
    if h = closeBrace then some ([], l :: cs)
    else if h = ' ' then lexBraced (l :: cs)
    else do
      let v ← hexPair h l
      let (b, cs) ← lexBraced cs
      return (v :: b, cs)

/-- A character that stands in a word. -/
def isWordChar (c : Char) : Bool :=
  c ≠ ' ' && c ≠ ',' && c ≠ '[' && c ≠ ']' && c ≠ '"' && c ≠ openBrace && c ≠ closeBrace

/-- The tokens of a line. Every token takes at least one character, so the line's length is fuel enough. -/
def lexWith : Nat → List Char → Option (List Token)
  | _, [] => some []
  | 0, _ :: _ => none
  | fuel + 1, c :: cs =>
    if c = ' ' then lexWith fuel cs
    else if c = ',' then (Token.comma :: ·) <$> lexWith fuel cs
    else if c = '[' then (Token.openList :: ·) <$> lexWith fuel cs
    else if c = ']' then (Token.closeList :: ·) <$> lexWith fuel cs
    else if c = '"' then do
      let (b, cs) ← lexQuoted cs
      (Token.buffer b :: ·) <$> lexWith fuel cs
    else if c = openBrace then do
      let (b, cs) ← lexBraced cs
      (Token.buffer b :: ·) <$> lexWith fuel cs
    else if isWordChar c then
      (Token.word (c :: cs.takeWhile isWordChar) :: ·) <$> lexWith fuel (cs.dropWhile isWordChar)
    else none

/-- The tokens of a line. -/
def lexLine (line : String) : Option (List Token) := lexWith line.toList.length line.toList

/-! Operands. -/

/-- The digits of a number in some base; at least one. -/
def digitsValue (base : Nat) (digit : Char → Option Nat) (cs : List Char) : Option Nat :=
  if cs = [] then none else do
    let ds ← cs.mapM digit
    return ds.foldl (fun v d => v * base + d) 0

/-- A decimal or `0x`-prefixed hex integer. -/
def parseInteger : List Char → Option Nat
  | '0' :: 'x' :: cs => digitsValue 16 charHex cs
  | cs => digitsValue 10 charDigit cs

/-- An integer operand that fits its field; one that does not cannot be presented. -/
def parseField (w : Nat) (cs : List Char) : Option (BitVec w) := do
  let n ← parseInteger cs
  if n < 2 ^ w then return BitVec.ofNat w n else none

/-- The decimal exponent after `e`. -/
def parseExponent : List Char → Option Int
  | [] => some 0
  | 'e' :: '-' :: cs => do
    let n ← digitsValue 10 charDigit cs
    return -(n : Int)
  | 'e' :: '+' :: cs => do
    let n ← digitsValue 10 charDigit cs
    return (n : Int)
  | 'e' :: cs => do
    let n ← digitsValue 10 charDigit cs
    return (n : Int)
  | _ => none

/-- An unsigned decimal literal, converted to binary32 by `f32()` (00_scope.md R10). -/
def parseDecimal (neg : Bool) (cs : List Char) : Option F32 := do
  let mantissa := cs.takeWhile (· ≠ 'e')
  let whole := mantissa.takeWhile (· ≠ '.')
  let fraction := (mantissa.dropWhile (· ≠ '.')).drop 1
  let n ← digitsValue 10 charDigit (whole ++ fraction)
  let e ← parseExponent (cs.dropWhile (· ≠ 'e'))
  let scale := e - (fraction.length : Int)
  return F32.ofRat neg (n * 10 ^ scale.toNat * 2 ^ 149) (10 ^ (-scale).toNat)

/-- A `<value>` operand: a decimal literal, `bits:0xHHHHHHHH`, `NaN`, `+Inf` or `-Inf` (30_encoding.md R104). -/
def parseValue (cs : List Char) : Option Word :=
  if cs = "NaN".toList then some 0x7FC00000
  else if cs = "+Inf".toList then some 0x7F800000
  else if cs = "-Inf".toList then some 0xFF800000
  else match cs with
    | 'b' :: 'i' :: 't' :: 's' :: ':' :: cs => parseField 32 cs
    | '-' :: cs => F32.bits32 <$> parseDecimal true cs
    | cs => F32.bits32 <$> parseDecimal false cs

/-- A `<kind>` operand. -/
def parseKind (cs : List Char) : Option FrameKind :=
  if cs = "EXT_DATA".toList then some .extData
  else if cs = "STD_DATA".toList then some .stdData
  else if cs = "EXT_REMOTE".toList then some .extRemote
  else if cs = "STD_REMOTE".toList then some .stdRemote
  else none

/-- A `<mode>` operand: a name, or 0 to 3. -/
def parseMode (cs : List Char) : Option RunMode :=
  if cs = "OPCTRL".toList then some .operationControl
  else if cs = "POSITION".toList then some .position
  else if cs = "SPEED".toList then some .speed
  else if cs = "CURRENT".toList then some .current
  else RunMode.ofCode <$> parseField 2 cs

/-- A `<q>` operand. -/
def parseQuantity (cs : List Char) : Option Quantity :=
  if cs = "ANGLE".toList then some .angle
  else if cs = "SPEED".toList then some .speed
  else if cs = "TORQUE".toList then some .torque
  else if cs = "TEMP".toList then some .temp
  else none

/-- The bytes of a payload list after its first byte, up to the closing bracket. -/
def parseListTail : List Token → Option (List Byte)
  | [.closeList] => some []
  | .comma :: .word cs :: ts => do
    let b ← parseField 8 cs
    let bs ← parseListTail ts
    return b :: bs
  | _ => none

/-- A payload list: `[]`, or bytes between commas. -/
def parseList : List Token → Option (List Byte)
  | [.openList, .closeList] => some []
  | .openList :: .word cs :: ts => do
    let b ← parseField 8 cs
    let bs ← parseListTail ts
    return b :: bs
  | _ => none

/-- The payload slots of at most 8 listed bytes; the unlisted ones are 0 (30_encoding.md R104). -/
def payloadSlots (bs : List Byte) : Bytes8 :=
  ⟨bs.getD 0 0, bs.getD 1 0, bs.getD 2 0, bs.getD 3 0, bs.getD 4 0, bs.getD 5 0, bs.getD 6 0, bs.getD 7 0⟩

/-- The instruction that an operation's tokens spell (30_encoding.md R104, R105). -/
def parseOperation (name : List Char) (args : List Token) : Option Instr :=
  if name = "FRAME.ENC".toList then
    match args with
    | .word kind :: .comma :: .word id :: .comma :: list => do
      let kind ← parseKind kind
      let id ← parseField 32 id
      let bs ← parseList list
      if bs.length ≤ 8 then return .frameEnc kind id (BitVec.ofNat 4 bs.length) (payloadSlots bs) else none
    | _ => none
  else if name = "FRAME.DEC".toList then
    match args with
    | [.buffer b] => some (.frameDec b)
    | _ => none
  else if name = "ID.PACK".toList then
    match args with
    | [.word c, .comma, .word h, .comma, .word m] =>
      return .idPack (← parseField 5 c) (← parseField 8 h) (← parseField 8 m)
    | _ => none
  else if name = "ID.UNPACK".toList then
    match args with
    | [.word id] => return .idUnpack (← parseField 29 id)
    | _ => none
  else if name = "ENC.ENABLE".toList then
    match args with
    | [.word h, .comma, .word m] => return .encEnable (← parseField 8 h) (← parseField 8 m)
    | _ => none
  else if name = "ENC.DISABLE".toList then
    match args with
    | [.word h, .comma, .word m] => return .encDisable (← parseField 8 h) (← parseField 8 m)
    | _ => none
  else if name = "ENC.RUN_MODE".toList then
    match args with
    | [.word h, .comma, .word m, .comma, .word mode] =>
      return .encRunMode (← parseField 8 h) (← parseField 8 m) (← parseMode mode)
    | _ => none
  else if name = "ENC.WRITE_FLOAT".toList then
    match args with
    | [.word h, .comma, .word m, .comma, .word i, .comma, .word v] =>
      return .encWriteFloat (← parseField 8 h) (← parseField 8 m) (← parseField 16 i) (← parseValue v)
    | _ => none
  else if name = "DEC.RESPONSE".toList then
    match args with
    | [.buffer b] => some (.decResponse b)
    | _ => none
  else if name = "Q.DEC".toList then
    match args with
    | [.word q, .comma, .word raw] => return .qDec (← parseQuantity q) (← parseField 16 raw)
    | _ => none
  else if name = "Q.ENC".toList then
    match args with
    | [.word q, .comma, .word v] => return .qEnc (← parseQuantity q) (← parseValue v)
    | _ => none
  else if name = "ENC.SPEED_REF".toList then
    match args with
    | [.word h, .comma, .word m, .comma, .word v] =>
      return encSpeedRef (← parseField 8 h) (← parseField 8 m) (← parseValue v)
    | _ => none
  else if name = "ENC.SPEED_MODE".toList then
    match args with
    | [.word h, .comma, .word m] => return encSpeedMode (← parseField 8 h) (← parseField 8 m)
    | _ => none
  else none

/-- The instruction a line of text spells, if it spells one (30_encoding.md R104). -/
def assemble (line : String) : Option Instr :=
  match lexLine line with
  | some (.word name :: args) => parseOperation name args
  | _ => none

/-- The request record that presents a line of text (10_state.md R34). -/
def assembleRecord (line : String) : Option Presented := encode <$> assemble line

end Sys2Proof.Machine
end

