-- ==== Sys2Proof/Machine/Flags.lean ====
section
/-! DEFINITION. The block has no condition codes (10_state.md R37). What it has is the status field of a response
(60_exceptions.md R251), and the fault flags and mode that a `Feedback` result copies from the motor (10_state.md R38,
R43; 43_response_decoder.md R206). -/

namespace Sys2Proof.Machine

/-- The 4-bit status code of an error kind (60_exceptions.md R251). -/
def ErrKind.code : ErrKind → BitVec 4
  | .idOutOfRange => 1
  | .malformedFrame => 2
  | .invalidHexDigit => 3
  | .invalidNumericValue => 4
  | .unsupportedFrameKind => 5
  | .unknownCommunicationType => 6
  | .notImplemented => 7
  | .illegalOperation => 8
  | .contractViolation => 9

/-- The `status` field of a response: 0 is OK (10_state.md R35, 60_exceptions.md R251). -/
def Response.status : Response → BitVec 4
  | .ok _ => 0
  | .err kind _ => kind.code

/-- The fault flags a motor can report (10_state.md R38). -/
inductive FaultFlag where
  | notCalibrated
  | hallEncoderFault
  | magneticEncoderFault
  | overtemperature
  | overcurrent
  | undervoltage
deriving DecidableEq, Repr

/-- The bit of `faults` that holds a flag (43_response_decoder.md R206). -/
def FaultFlag.bit : FaultFlag → Nat
  | .notCalibrated => 5
  | .hallEncoderFault => 4
  | .magneticEncoderFault => 3
  | .overtemperature => 2
  | .overcurrent => 1
  | .undervoltage => 0

/-- Whether a 6-bit `faults` field holds a flag. -/
def faultSet (faults : BitVec 6) (flag : FaultFlag) : Bool := faults.getLsbD flag.bit

/-- What a feedback mode says of the motor (10_state.md R43, 43_response_decoder.md R206). -/
inductive MotorMode where
  | reset
  | calibration
  | run
  | reserved
deriving DecidableEq, Repr

/-- The meaning of the 2-bit `mode` field. Value 3 is reserved and has no meaning (R206). -/
def MotorMode.ofField (mode : BitVec 2) : MotorMode :=
  if mode = 0 then .reset else if mode = 1 then .calibration else if mode = 2 then .run else .reserved

end Sys2Proof.Machine
end

