-- ==== Sys2Proof/Safety.lean ====
section
/-! DEFINITION. The terms claims are stated in: which responses are legal (10_state.md R35, R36), the invariant of the
machine, the duties of the host (10_state.md R47, 70_reset_and_hazards.md R284), a run (R286), and the real value of a
binary32 number. -/

namespace Sys2Proof.Machine

/-- A pattern of a finite number. -/
def finitePattern (w : Word) : Prop := F32.isFinite (F32.fromBits32 w) = true

/-- The limits of each result variant (10_state.md R36; for a float result, 44_quantization_lut.md R230; for a packed
identifier, 41_identifier_packer.md R151). -/
def Result.legal : Result → Prop
  | .bytes out => ∃ dlc : Nat, dlc ≤ MAX_DLC ∧ out.length = FRAME_LEN dlc ∧ out.head? = some MARK_EXT_DATA
  | .frame kind _ dlc payload => kind = .extData ∧ dlc.toNat ≤ MAX_DLC ∧ payload.length = dlc.toNat
  | .id v => (CanId.ctype v).toNat ≤ CTYPE_MAX ∧ CanId.mid v = 0 ∧ (CanId.hi v).toNat ≤ ID_MAX ∧ (CanId.lo v).toNat ≤ ID_MAX
  | .idFields _ _ _ _ => True
  | .f32 x => finitePattern x
  | .u16 _ => True
  | .feedback _ _ _ _ angle speed torque temp =>
    finitePattern angle ∧ finitePattern speed ∧ finitePattern torque ∧ finitePattern temp
  | .param _ _ _ _ => True

/-- `errval` is 0 except for `UnknownCommunicationType`, where it is a type other than 0, 2 and 17 (10_state.md R35,
60_exceptions.md R251, 43_response_decoder.md R204). -/
def Response.legal : Response → Prop
  | .ok result => result.legal
  | .err kind errval =>
    if kind = .unknownCommunicationType then errval ≠ CT_DEVICE_ID ∧ errval ≠ CT_STATUS ∧ errval ≠ CT_READ_PARAM
    else errval = 0

/-- The machine's invariant: every response it holds or has handed over is legal. -/
def State.inv (s : State) : Prop := (∀ r, s.rsp = some r → r.legal) ∧ ∀ r ∈ s.observed, r.legal

/-! The duties of the host, which the block does not check. -/

/-- No move takes a response that no request has brought, given whether one is there or on its way (10_state.md R45,
70_reset_and_hazards.md R282). -/
def readsOnlyAnswered : Bool → List HostMove → Bool
  | _, [] => true
  | _, .present _ :: moves => readsOnlyAnswered true moves
  | has, .takeResponse :: moves => has && readsOnlyAnswered has moves
  | _, .reset :: moves => readsOnlyAnswered false moves

/-- The host of this state keeps that duty from here on. -/
def State.dutiful (s : State) : Bool := readsOnlyAnswered (s.rsp.isSome || s.port.isSome) s.host

/-- A buffer from which the line terminator has been stripped (10_state.md R47 item 1). -/
def terminatorStripped (input : Buffer) : Prop := input.getLast? ≠ some 0x0D

/-- A speed set-point within [-30, 30] rad/s (10_state.md R47 item 2). -/
def speedInRange (value : Word) : Prop :=
  match F32.fromBits32 value with
  | .fin _ mag => mag ≤ 30 * 2 ^ 149
  | _ => False

/-! Runs. -/

/-- The host's moves for a list of requests: present each and take its response (70_reset_and_hazards.md R284, R286). -/
def runMoves : List Request → List HostMove
  | [] => []
  | r :: rs => .present r :: .takeResponse :: runMoves rs

/-- The state at the start of a run: straight after reset, with a host that will make these moves. -/
def startOfRun (rs : List Request) : State := { State.reset with host := runMoves rs }

/-- No number of steps from here ends in a fault. -/
def State.safe (s : State) : Prop := ∀ n f, Host.Core.run Sys2Proof.core n s ≠ .fault f

/-! Real values. -/

/-- The real value of a finite number, in units of `2^-149`; 0 for the others. -/
def F32.units : F32 → Rat
  | .fin false mag => mag
  | .fin true mag => -(mag : Rat)
  | _ => 0

/-- How far the magnitude pattern `w` is from `num / den` units, times `den`. -/
def F32.patternDistance (num den w : Nat) : Nat :=
  (F32.magOfPattern w * den - num) + (num - F32.magOfPattern w * den)

end Sys2Proof.Machine
end

