-- ==== Sys2Proof/Certificates/Slice0/Obligations.lean ====
section
/-! DEFINITION. The statements put to the provers. Each cites the rule of the spec it formalises; OBLIGATIONS.json lists
them with their sentences. -/

open Sys2Proof Sys2Proof.Machine

/-! Encodings. -/

/-- 30_encoding.md R100; 10_state.md R34, R39, R40, R42: a request decodes to the operation its code selects, on that
operation's own fields, whatever the other fields hold; and words of the opcode table written out from the tables
(40_slcan_frame_codec.md R131; 30_encoding.md R83, R84) decode to the rows they stand for. Running the rows of a marker byte
or a communication type on their own is the model's choice (notes/assumptions/3.md). -/
def Obligations.SpecWordsDecodeToTheirRows : Prop :=
  (∀ r : Request,
    (let selects (opsel : Byte) (i : Instr) : Prop := r.opsel = opsel → decode (.request r) = .ok i
     (∀ kind ∈ [((0 : BitVec 2), FrameKind.extData), (1, .stdData), (2, .extRemote), (3, .stdRemote)],
       r.kind = kind.1 → selects 0x01 (.frameEnc kind.2 r.id r.plen r.payload)) ∧
     selects 0x02 (.frameDec r.input) ∧
     selects 0x03 (.idPack r.ctype r.host r.motor) ∧
     selects 0x04 (.idUnpack r.canId) ∧
     (∀ q ∈ [((0 : BitVec 2), Quantity.angle), (1, .speed), (2, .torque), (3, .temp)],
       r.q = q.1 → selects 0x05 (.qDec q.2 r.raw) ∧ selects 0x06 (.qEnc q.2 r.value)) ∧
     selects 0x10 (.encEnable r.host r.motor) ∧
     selects 0x11 (.encDisable r.host r.motor) ∧
     (∀ mode ∈ [((0 : BitVec 2), RunMode.operationControl), (1, .position), (2, .speed), (3, .current)],
       r.mode = mode.1 → selects 0x12 (.encRunMode r.host r.motor mode.2)) ∧
     selects 0x13 (.encWriteFloat r.host r.motor r.index r.value) ∧
     selects 0x20 (.decResponse r.input))) ∧
  decodeTableWord 8 0x01 = some (.frameEnc .extData 0 0 Bytes8.zero) ∧
  decodeTableWord 8 0x04 = some (.idUnpack 0) ∧
  decodeTableWord 8 0x06 = some (.qEnc .angle 0) ∧
  decodeTableWord 8 0x13 = some (.encWriteFloat 0 0 0 0) ∧
  decodeTableWord 8 0x20 = some (.decResponse []) ∧
  decodeTableWord 8 0x72 = some (.markStdRemote []) ∧
  decodeTableWord 32 0x0300647F = some (.ct3Enable 0x64 0x7F) ∧
  decodeTableWord 32 0x1200007F = some (.ct18WriteParam 0x00 0x7F 0 0) ∧
  decodeTableWord 32 0x02847F00 = some (.ct2StatusReport 2 4 0x7F 0x00 Bytes8.zero) ∧
  decodeTableWord 32 0x11AB7F05 = some (.ct17ReadParam 0xAB 0x7F 0x05 Bytes8.zero)

/-- Decoding an encoded instruction gives it back, with every operand (30_encoding.md R83-R88, R100). -/
def Obligations.DecodeInvertsEncode : Prop := ∀ i : Instr, decode (encode i) = .ok i

/-- A line, and a CAN frame with a full payload, have one encoding: encoding what they decode to gives them back
(40_slcan_frame_codec.md R131; 30_encoding.md R83, R84, R85).
Running the rows of a marker byte or a communication type on their own is the model's choice (notes/assumptions/3.md). -/
def Obligations.WireWordsHaveOneEncoding : Prop :=
  (∀ (bytes : Buffer) (i : Instr), decode (.line bytes) = .ok i → encode i = .line bytes) ∧
  (∀ (id : Word) (p : Bytes8) (i : Instr), decode (.canFrame id p) = .ok i →
    id.toNat / 2 ^ 24 ≠ 3 → id.toNat / 2 ^ 24 ≠ 4 → encode i = .canFrame id p)

/-- 30_encoding.md R101: each of the other 245 operation select codes is answered with `IllegalOperation`, whatever the
operand fields hold, and nothing but `RSP` (and the request's leaving the input) changes, in every state whose next host move
is no reset. That the block answers before any other host move, and that a reset alone comes first, is the model's choice
(notes/assumptions/4.md). -/
def Obligations.UndefinedOpselIsIllegalOperation : Prop :=
  ∀ (s : State) (r : Request), s.port = some (.request r) → s.host.head? ≠ some .reset →
    r.opsel.toNat ∉ [0x01, 0x02, 0x03, 0x04, 0x05, 0x06, 0x10, 0x11, 0x12, 0x13, 0x20] →
    step s = .next { s with port := none, rsp := some (.err .illegalOperation 0) }

/-- 30_encoding.md R83, R84, R103: an identifier, written as a number from its fields, selects the row of its communication
type. A command type (3, 4 or 18) whose reserved zeros (R83, R85) are broken in bits 23-16 or in payload bytes 2-3, a type
with no row, and an identifier above 29 bits select none; that they do, and the error each is answered with, is the model's
choice (notes/assumptions/7.md), as is running such a row on its own (notes/assumptions/3.md) and who moves next
(notes/assumptions/4.md). -/
def Obligations.IdentifierSelectsItsRow : Prop :=
  let selects (w : Word) (p : Bytes8) (i : Instr) : Prop := decode (.canFrame w p) = .ok i
  let refused (w : Word) (p : Bytes8) (e : DecodeError) (kind : ErrKind) (errval : BitVec 5) : Prop :=
    decode (.canFrame w p) = .error e ∧
    ∀ s : State, s.port = some (.canFrame w p) → s.host.head? ≠ some .reset →
      step s = .next { s with port := none, rsp := some (.err kind errval) }
  (∀ (ct mid hi lo : Nat) (p : Bytes8), ct < 32 → mid < 256 → hi < 256 → lo < 256 →
    (let w := BitVec.ofNat 32 (ct * 2 ^ 24 + mid * 2 ^ 16 + hi * 2 ^ 8 + lo)
     let h := BitVec.ofNat 8 hi
     let l := BitVec.ofNat 8 lo
     let noRow : Prop := refused w p (.noCommunicationType (BitVec.ofNat 5 ct)) .unknownCommunicationType (BitVec.ofNat 5 ct)
     (ct = 3 → mid = 0 → selects w p (.ct3Enable h l)) ∧
     (ct = 4 → mid = 0 → selects w p (.ct4Disable h l)) ∧
     (ct = 18 → mid = 0 → p.b2 = 0 → p.b3 = 0 → ∃ index value, selects w p (.ct18WriteParam h l index value) ∧
       index.toNat = p.b0.toNat + 2 ^ 8 * p.b1.toNat ∧
       value.toNat = p.b4.toNat + 2 ^ 8 * p.b5.toNat + 2 ^ 16 * p.b6.toNat + 2 ^ 24 * p.b7.toNat) ∧
     (ct = 2 → selects w p (.ct2StatusReport (BitVec.ofNat 2 (mid / 64)) (BitVec.ofNat 6 (mid % 64)) h l p)) ∧
     (ct = 17 → selects w p (.ct17ReadParam (BitVec.ofNat 8 mid) h l p)) ∧
     (ct = 0 → ∃ low, selects w p (.ct0DeviceId low p) ∧ low.toNat = mid * 2 ^ 16 + hi * 2 ^ 8 + lo) ∧
     (ct ∈ [3, 4, 18] → mid ≠ 0 → noRow) ∧
     (ct = 18 → p.b2 ≠ 0 ∨ p.b3 ≠ 0 → noRow) ∧
     (ct ∉ [0, 2, 3, 4, 17, 18] → noRow))) ∧
  ∀ (w : Word) (p : Bytes8), 2 ^ 29 ≤ w.toNat → refused w p (.identifierTooWide w) .malformedFrame 0

/-! The machine. -/

/-- 10_state.md R31, R33: when the record at the block's input decodes to `i`, the step takes it from the input and runs
`i`; nothing is fetched. The rules say so of a request. That a line or a CAN frame can stand there too is the model's choice
(notes/assumptions/3.md), and so is who moves next (notes/assumptions/4.md). -/
def Obligations.StepRunsTheDecodedInstruction : Prop :=
  ∀ (s : State) (p : Presented) (i : Instr), s.port = some p → s.host.head? ≠ some .reset → decode p = .ok i →
    step s = exec i { s with port := none }

/-- 10_state.md R33: a presented request always completes in one step, with a result or an error in `RSP`, and nothing else
but its leaving the input changes. That lines and CAN frames can be presented (notes/assumptions/3.md), that one which spells
no row is answered too (notes/assumptions/7.md), and who moves next (notes/assumptions/4.md) are the model's choice. -/
def Obligations.EveryPresentedRequestCompletes : Prop :=
  ∀ (s : State) (p : Presented), s.port = some p → s.host.head? ≠ some .reset →
    ∃ r, step s = .next { s with port := none, rsp := some r }

/-- FRAME of all instructions (10_state.md R33; 60_exceptions.md R250): a next state differs in `RSP` alone, which holds a
response. It covers every constructor. -/
def Obligations.InstructionsWriteNothingButRsp : Prop :=
  ∀ (i : Instr) (s t : State), exec i s = .next t → ∃ r, t = { s with rsp := some r }

/-- 10_state.md R32: no operation reads `RSP`, the input, the host or any earlier response: in any two states an instruction
gives the same response. -/
def Obligations.ResponseDependsOnTheRequestAlone : Prop :=
  ∀ (i : Instr) (s t s' t' : State), exec i s = .next s' → exec i t = .next t' → s'.rsp = t'.rsp

/-- 70_reset_and_hazards.md R280, 10_state.md R44: `RSP` is none after reset, and no request is in presentation. The host's
script and its record are the model's own (notes/assumptions/4.md). -/
def Obligations.ResetLeavesRspNone : Prop := State.reset.rsp = none ∧ State.reset.port = none

/-- 70_reset_and_hazards.md R280: a reset sets `RSP` to none and discards any request not yet answered, in every state. That
it touches neither the host's coming moves nor the responses already taken is the model's choice
(notes/assumptions/4.md). -/
def Obligations.ResetDiscardsTheUnansweredRequest : Prop :=
  ∀ (s : State) (moves : List HostMove), s.host = .reset :: moves →
    step s = .next { s with rsp := none, port := none, host := moves }

/-- 10_state.md R45: taking a response while `RSP` is none is a fault, never a zero or a default response.
The host as a script, and who moves next, are the model's choice (notes/assumptions/4.md). -/
def Obligations.ReadingAnEmptyRspFaults : Prop :=
  ∀ (s : State) (moves : List HostMove), s.host = .takeResponse :: moves → s.port = none → s.rsp = none →
    step s = .fault .rspEmpty

/-- 20_memory.md R62 and 10_state.md R45: a step faults in that one case only. No operation reads past the end of a buffer,
writes out of order, or rounds a NaN, on any operands; and no step is refused.
The host as a script, and who moves next, are the model's choice (notes/assumptions/4.md). -/
def Obligations.OnlyAnEarlyReadFaults : Prop :=
  ∀ s : State,
    (∀ f, step s = .fault f →
      f = .rspEmpty ∧ s.rsp = none ∧ s.port = none ∧ s.host.head? = some .takeResponse) ∧
    ∀ r, step s ≠ .refused r

/-- 10_state.md R46, 70_reset_and_hazards.md R284: with nothing in presentation, the host's move present fills the input with
that request, and its move takeResponse hands over exactly what `RSP` holds; neither changes anything else but the host's
script. The host as a script, and who moves next, are the model's choice (notes/assumptions/4.md). -/
def Obligations.HostMovesTouchTheInterfaceAlone : Prop :=
  ∀ (s : State) (moves : List HostMove), s.port = none →
    (∀ r : Request, s.host = .present r :: moves →
      step s = .next { s with port := some (.request r), host := moves }) ∧
    ∀ r : Response, s.host = .takeResponse :: moves → s.rsp = some r →
      step s = .next { s with host := moves, observed := s.observed ++ [r] }

/-- 60_exceptions.md R264: with no request and no move to come the block is idle, with `RSP` kept unchanged.
The host as a script, and who moves next, are the model's choice (notes/assumptions/4.md). -/
def Obligations.IdleBlockKeepsRsp : Prop := ∀ s : State, s.port = none → s.host = [] → step s = .next s

/-- The invariant holds right after reset. -/
def Obligations.InvariantHoldsAtReset : Prop := State.reset.inv

/-- Every step keeps the invariant: a response held or handed over is legal (10_state.md R35, R36; 60_exceptions.md R251;
44_quantization_lut.md R230). -/
def Obligations.EveryStepKeepsResponsesLegal : Prop := ∀ s t : State, s.inv → step s = .next t → t.inv

/-- A host that takes only responses that a request has brought never stops the machine, in any number of steps, from any
state (70_reset_and_hazards.md R282, R284; 10_state.md R45).
The host as a script, and who moves next, are the model's choice (notes/assumptions/4.md). -/
def Obligations.DutifulHostNeverFaults : Prop := ∀ s : State, s.dutiful = true → s.safe

/-- 70_reset_and_hazards.md R286, R281; 20_memory.md R70: a run of n requests ends with one response for each, in order, each
the response that request gets straight after reset, and `RSP` holds the last.
The host as a script, and who moves next, are the model's choice (notes/assumptions/4.md). -/
def Obligations.RunObservesEachRequestsOwnResponse : Prop :=
  ∀ rs : List Request, ∃ t : State, ∃ resp : List Response,
    Host.Core.run Sys2Proof.core (3 * rs.length) (startOfRun rs) = .next t ∧
    t = { rsp := resp.getLast?, port := none, host := [], observed := resp } ∧
    List.Forall₂ (fun q r => step { State.reset with port := some (.request q) } = .next { State.reset with rsp := some r }) rs resp

/-! The SLCAN frame codec. -/

/-- 00_scope.md R11; 40_slcan_frame_codec.md R120, R121: the digits the encoder draws, the characters that are hex, their
values, and that drawing then reading a nibble gives it back. -/
def Obligations.HexCharactersAsTheAsciiTable : Prop :=
  (∀ n : BitVec 4, (n.toNat ≤ 9 → hexU n = BitVec.ofNat 8 (0x30 + n.toNat)) ∧
    (10 ≤ n.toNat → hexU n = BitVec.ofNat 8 (0x41 + (n.toNat - 10)))) ∧
  (∀ c : Byte, isHex c = true ↔
    (0x30 ≤ c.toNat ∧ c.toNat ≤ 0x39) ∨ (0x41 ≤ c.toNat ∧ c.toNat ≤ 0x46) ∨ (0x61 ≤ c.toNat ∧ c.toNat ≤ 0x66)) ∧
  (∀ c : Byte, (0x30 ≤ c.toNat → c.toNat ≤ 0x39 → hexval c = some (BitVec.ofNat 4 (c.toNat - 0x30))) ∧
    (0x41 ≤ c.toNat → c.toNat ≤ 0x46 → hexval c = some (BitVec.ofNat 4 (c.toNat - 0x41 + 10))) ∧
    (0x61 ≤ c.toNat → c.toNat ≤ 0x66 → hexval c = some (BitVec.ofNat 4 (c.toNat - 0x61 + 10))) ∧
    (isHex c = false → hexval c = none)) ∧
  ∀ n : BitVec 4, hexval (hexU n) = some n

/-- 40_slcan_frame_codec.md R123: a hex number weighs its digits by powers of 16, the first most significant, and eight
digits fit a `u32`. -/
def Obligations.ParseHexWeighsDigitsByPowersOf16 : Prop :=
  (∀ ds : List (BitVec 4), parseHex ds = ((List.range ds.length).map fun j => (ds.getD j 0).toNat * 16 ^ (ds.length - 1 - j)).sum) ∧
  ∀ ds : List (BitVec 4), ds.length = 8 → parseHex ds < 2 ^ 32

/-- 40_slcan_frame_codec.md R130, R135; 30_encoding.md R80, R81: FRAME.ENC of a legal frame completes with the marker, eight
identifier digits from the top, the DLC digit and two digits for each of the first `plen` payload bytes, and it has
`10 + 2*plen` bytes. -/
def Obligations.FrameEncSpellsTheFrame : Prop :=
  ∀ (id : Word) (plen : BitVec 4) (payload : Bytes8) (s : State), id.toNat ≤ 0x1FFFFFFF → plen.toNat ≤ 8 →
    ∃ out : Buffer, exec (.frameEnc .extData id plen payload) s = .next { s with rsp := some (.ok (.bytes out)) } ∧
      out = [0x54] ++ (List.range 8).map (fun j => hexU (BitVec.ofNat 4 (id.toNat / 16 ^ (7 - j)))) ++ [hexU plen] ++
        (payload.toList.take plen.toNat).flatMap
          (fun b => [hexU (BitVec.ofNat 4 (b.toNat / 16)), hexU (BitVec.ofNat 4 b.toNat)]) ∧
      out.length = 10 + 2 * plen.toNat

/-- 40_slcan_frame_codec.md R130 (order of checks: 60_exceptions.md R255): FRAME.ENC refuses another kind first, then an
identifier above 29 bits, then a payload length above 8. -/
def Obligations.FrameEncErrorsInOrder : Prop :=
  ∀ (kind : FrameKind) (id : Word) (plen : BitVec 4) (payload : Bytes8) (s : State),
    (kind ≠ .extData →
      exec (.frameEnc kind id plen payload) s = .next { s with rsp := some (.err .unsupportedFrameKind 0) }) ∧
    (kind = .extData → 0x1FFFFFFF < id.toNat →
      exec (.frameEnc kind id plen payload) s = .next { s with rsp := some (.err .contractViolation 0) }) ∧
    (kind = .extData → id.toNat ≤ 0x1FFFFFFF → 8 < plen.toNat →
      exec (.frameEnc kind id plen payload) s = .next { s with rsp := some (.err .contractViolation 0) })

/-- 40_slcan_frame_codec.md R131, R132, R134: FRAME.DEC of a line in the format completes with its fields, in either case of
its digits; so does the marker row MARK.T on the rest of the line.
Running the rows of a marker byte or a communication type on their own is the model's choice (notes/assumptions/3.md). -/
def Obligations.FrameDecReadsTheFrame : Prop :=
  ∀ (input : Buffer) (ids data : List (BitVec 4)) (dlc : BitVec 4) (s : State),
    input.head? = some 0x54 → dlc.toNat ≤ 8 → input.length = 10 + 2 * dlc.toNat →
    ((input.drop 1).take 8).map hexval = ids.map some → (input[9]?).map hexval = some (some dlc) →
    (input.drop 10).map hexval = data.map some → parseHex ids ≤ 0x1FFFFFFF →
    (let payload : Buffer := (List.range dlc.toNat).map fun k =>
       BitVec.ofNat 8 ((data.getD (2 * k) 0).toNat * 16 + (data.getD (2 * k + 1) 0).toNat)
     let t : State := { s with rsp := some (.ok (.frame .extData (BitVec.ofNat 29 (parseHex ids)) dlc payload)) }
     exec (.frameDec input) s = .next t ∧ exec (.markExtData input.tail) s = .next t)

/-- 40_slcan_frame_codec.md R132 (order of checks: 60_exceptions.md R255): the first check that fails decides FRAME.DEC's
error. -/
def Obligations.FrameDecErrorsInOrder : Prop :=
  ∀ (s : State) (rest : Buffer),
    (let err (input : Buffer) (k : ErrKind) : Prop := exec (.frameDec input) s = .next { s with rsp := some (.err k 0) }
     let nonHexAt (i : Nat) : Prop := ∃ c, (0x54 :: rest)[i]? = some c ∧ isHex c = false
     err [] .malformedFrame ∧
     (∀ m ∈ [0x74, 0x52, 0x72], err (m :: rest) .unsupportedFrameKind) ∧
     (∀ m : Byte, m ∉ [0x54, 0x74, 0x52, 0x72] → err (m :: rest) .malformedFrame) ∧
     (rest.length < 9 → err (0x54 :: rest) .malformedFrame) ∧
     (9 ≤ rest.length → (∃ i, 1 ≤ i ∧ i ≤ 8 ∧ nonHexAt i) → err (0x54 :: rest) .invalidHexDigit) ∧
     ∀ ids : List (BitVec 4), 9 ≤ rest.length → (rest.take 8).map hexval = ids.map some →
       (0x1FFFFFFF < parseHex ids → err (0x54 :: rest) .malformedFrame) ∧
       (parseHex ids ≤ 0x1FFFFFFF → nonHexAt 9 → err (0x54 :: rest) .invalidHexDigit) ∧
       (parseHex ids ≤ 0x1FFFFFFF → ∀ dlc : BitVec 4, (rest[8]?).map hexval = some (some dlc) →
         (8 < dlc.toNat → err (0x54 :: rest) .malformedFrame) ∧
         (dlc.toNat ≤ 8 → rest.length + 1 ≠ 10 + 2 * dlc.toNat → err (0x54 :: rest) .malformedFrame) ∧
         (dlc.toNat ≤ 8 → rest.length + 1 = 10 + 2 * dlc.toNat → (∃ i, 10 ≤ i ∧ i < rest.length + 1 ∧ nonHexAt i) →
           err (0x54 :: rest) .invalidHexDigit)))

/-- 40_slcan_frame_codec.md R131: each marker row does to the rest of a line what FRAME.DEC does to the line with that
marker, and a standard-data, extended-remote or standard-remote marker is `UnsupportedFrameKind`, whatever follows it.
Running a marker row on its own is the model's choice (notes/assumptions/3.md). -/
def Obligations.MarkerRowsAreFrameDecsBranches : Prop :=
  ∀ (rest : Buffer) (s : State),
    (let unsupported : Host.Outcome State Fault Refusal := .next { s with rsp := some (.err .unsupportedFrameKind 0) }
     exec (.markExtData rest) s = exec (.frameDec (0x54 :: rest)) s ∧
     exec (.markStdData rest) s = unsupported ∧ exec (.frameDec (0x74 :: rest)) s = unsupported ∧
     exec (.markExtRemote rest) s = unsupported ∧ exec (.frameDec (0x52 :: rest)) s = unsupported ∧
     exec (.markStdRemote rest) s = unsupported ∧ exec (.frameDec (0x72 :: rest)) s = unsupported)

/-- 40_slcan_frame_codec.md R136: decoding what FRAME.ENC drew gives back the identifier, the length and the payload. -/
def Obligations.FrameDecInvertsFrameEnc : Prop :=
  ∀ (id : Word) (plen : BitVec 4) (payload : Bytes8) (s : State), id.toNat ≤ 0x1FFFFFFF → plen.toNat ≤ 8 →
    ∃ out : Buffer,
      exec (.frameEnc .extData id plen payload) s = .next { s with rsp := some (.ok (.bytes out)) } ∧
      exec (.frameDec out) s = 
        .next { s with rsp := some (.ok (.frame .extData (id.setWidth 29) plen (payload.toList.take plen.toNat))) }

/-- 40_slcan_frame_codec.md R136, the reverse: a decoded line whose hex characters are all upper-case encodes back to itself. -/
def Obligations.CanonicalLinesEncodeBack : Prop :=
  ∀ (input : Buffer) (s : State) (id : CanId) (dlc : BitVec 4) (p : Buffer),
    (∀ c ∈ input, c.toNat < 0x61) →
    exec (.frameDec input) s = .next { s with rsp := some (.ok (.frame .extData id dlc p)) } →
    ∀ payload : Bytes8, payload.toList.take dlc.toNat = p →
      exec (.frameEnc .extData (id.setWidth 32) dlc payload) s = .next { s with rsp := some (.ok (.bytes input)) }

/-- 10_state.md R47 item 1; 90_conflicts.md C5: a buffer that still ends in 0x0D is never decoded; FRAME.DEC and
DEC.RESPONSE answer it with an error. -/
def Obligations.LineTerminatorIsNeverAccepted : Prop :=
  ∀ (input : Buffer) (s : State), ¬ terminatorStripped input →
    (∃ k, exec (.frameDec input) s = .next { s with rsp := some (.err k 0) }) ∧
    (∃ k, exec (.decResponse input) s = .next { s with rsp := some (.err k 0) })

/-! The identifier packer. -/

/-- 41_identifier_packer.md R151: ID.PACK of legal fields completes with type, zeros, host and motor in their places; it
checks the ids first and the type after them. -/
def Obligations.IdPackPlacesTheFields : Prop :=
  ∀ (ctype : BitVec 5) (host motor : Byte) (s : State),
    (host.toNat ≤ 127 → motor.toNat ≤ 127 → ctype.toNat ≤ 21 →
      ∃ id : CanId, exec (.idPack ctype host motor) s = .next { s with rsp := some (.ok (.id id)) } ∧
        id.toNat = ctype.toNat * 2 ^ 24 + host.toNat * 2 ^ 8 + motor.toNat) ∧
    (127 < host.toNat ∨ 127 < motor.toNat →
      exec (.idPack ctype host motor) s = .next { s with rsp := some (.err .idOutOfRange 0) }) ∧
    (host.toNat ≤ 127 → motor.toNat ≤ 127 → 21 < ctype.toNat →
      exec (.idPack ctype host motor) s = .next { s with rsp := some (.err .contractViolation 0) })

/-- 41_identifier_packer.md R155: every operation that builds an identifier raises `IdOutOfRange` on a host or motor id above
127, whatever its other operands. -/
def Obligations.IdsOutOfRangeAreNeverClamped : Prop :=
  ∀ (host motor : Byte) (s : State), 127 < host.toNat ∨ 127 < motor.toNat →
    (let idOutOfRange (i : Instr) : Prop := exec i s = .next { s with rsp := some (.err .idOutOfRange 0) }
     (∀ ctype, idOutOfRange (.idPack ctype host motor)) ∧
     idOutOfRange (.encEnable host motor) ∧
     idOutOfRange (.encDisable host motor) ∧
     (∀ mode, idOutOfRange (.encRunMode host motor mode)) ∧
     (∀ index value, idOutOfRange (.encWriteFloat host motor index value)))

/-- 41_identifier_packer.md R152: ID.UNPACK splits every identifier, with no range check. -/
def Obligations.IdUnpackSplitsEveryIdentifier : Prop :=
  ∀ (id : CanId) (s : State), ∃ (ctype : BitVec 5) (mid hi lo : Byte),
    exec (.idUnpack id) s = .next { s with rsp := some (.ok (.idFields ctype mid hi lo)) } ∧
    id.toNat = ctype.toNat * 2 ^ 24 + mid.toNat * 2 ^ 16 + hi.toNat * 2 ^ 8 + lo.toNat

/-- 41_identifier_packer.md R154: unpacking a packed identifier gives its fields back, also when the identifier has
travelled through a frame. -/
def Obligations.PackedIdentifiersUnpackThroughAFrame : Prop :=
  ∀ (ctype : BitVec 5) (host motor : Byte) (plen : BitVec 4) (payload : Bytes8) (s : State),
    ctype.toNat ≤ 21 → host.toNat ≤ 127 → motor.toNat ≤ 127 → plen.toNat ≤ 8 →
    ∃ (id : CanId) (out : Buffer),
      exec (.idPack ctype host motor) s = .next { s with rsp := some (.ok (.id id)) } ∧
      exec (.idUnpack id) s = .next { s with rsp := some (.ok (.idFields ctype 0 host motor)) } ∧
      exec (.frameEnc .extData (id.setWidth 32) plen payload) s = .next { s with rsp := some (.ok (.bytes out)) } ∧
      exec (.frameDec out) s = 
        .next { s with rsp := some (.ok (.frame .extData id plen (payload.toList.take plen.toNat))) }

/-! The command encoder. -/

/-- 42_command_encoder.md R173, R174: the enable and disable frames, character by character, and the error of an id out of
range. -/
def Obligations.EnableAndDisableFrames : Prop :=
  ∀ (host motor : Byte) (s : State),
    (let frame (digit : Byte) : Buffer :=
       [0x54, 0x30, digit, 0x30, 0x30, hexU (BitVec.ofNat 4 (host.toNat / 16)), hexU (BitVec.ofNat 4 host.toNat),
        hexU (BitVec.ofNat 4 (motor.toNat / 16)), hexU (BitVec.ofNat 4 motor.toNat), 0x30]
     let answers (r : Response) : Host.Outcome State Fault Refusal := .next { s with rsp := some r }
     (host.toNat ≤ 127 → motor.toNat ≤ 127 →
       exec (.encEnable host motor) s = answers (.ok (.bytes (frame 0x33))) ∧
       exec (.encDisable host motor) s = answers (.ok (.bytes (frame 0x34)))) ∧
     (127 < host.toNat ∨ 127 < motor.toNat →
       exec (.encEnable host motor) s = answers (.err .idOutOfRange 0) ∧
       exec (.encDisable host motor) s = answers (.err .idOutOfRange 0)))

/-- 42_command_encoder.md R175: the run-mode frame, character by character, for each of the four modes. -/
def Obligations.RunModeFrame : Prop :=
  ∀ (host motor : Byte) (mode : RunMode) (s : State), host.toNat ≤ 127 → motor.toNat ≤ 127 →
    exec (.encRunMode host motor mode) s = .next { s with rsp := some (.ok (.bytes
      ([0x54, 0x31, 0x32, 0x30, 0x30, hexU (BitVec.ofNat 4 (host.toNat / 16)), hexU (BitVec.ofNat 4 host.toNat),
        hexU (BitVec.ofNat 4 (motor.toNat / 16)), hexU (BitVec.ofNat 4 motor.toNat), 0x38,
        0x30, 0x35, 0x37, 0x30, 0x30, 0x30, 0x30, 0x30, 0x30,
        (match mode with | .operationControl => 0x30 | .position => 0x31 | .speed => 0x32 | .current => 0x33),
        0x30, 0x30, 0x30, 0x30, 0x30, 0x30]))) }

/-- 42_command_encoder.md R176, R171: the write-float frame for every index and every 32-bit pattern, index and float
little-endian, each byte drawn high nibble first and sent unchanged; and the error of an id out of range. -/
def Obligations.WriteFloatFrame : Prop :=
  ∀ (host motor : Byte) (index : Half) (value : Word) (s : State),
    (let hex (n : Nat) : Buffer := [hexU (BitVec.ofNat 4 (n / 16)), hexU (BitVec.ofNat 4 n)]
     let out : Buffer := [0x54, 0x31, 0x32, 0x30, 0x30] ++ hex host.toNat ++ hex motor.toNat ++ [0x38] ++
       hex index.toNat ++ hex (index.toNat / 2 ^ 8) ++ [0x30, 0x30, 0x30, 0x30] ++
       hex value.toNat ++ hex (value.toNat / 2 ^ 8) ++ hex (value.toNat / 2 ^ 16) ++ hex (value.toNat / 2 ^ 24)
     (host.toNat ≤ 127 → motor.toNat ≤ 127 →
       exec (.encWriteFloat host motor index value) s = .next { s with rsp := some (.ok (.bytes out)) }) ∧
     (127 < host.toNat ∨ 127 < motor.toNat →
       exec (.encWriteFloat host motor index value) s = .next { s with rsp := some (.err .idOutOfRange 0) }))

/-- 30_encoding.md R83, R85, R103: the rows of the three communication types the block emits complete with the frame of the
command that emits them, and refuse the ids it refuses. Running such a row on its own is the model's choice
(notes/assumptions/3.md). -/
def Obligations.CommandRowsDrawTheirCommandsFrames : Prop :=
  ∀ (host motor : Byte) (index : Half) (value : Word) (s : State),
    (let draw (i j : Instr) : Prop := ∃ out : Buffer, exec i s = .next { s with rsp := some (.ok (.bytes out)) } ∧
       exec j s = .next { s with rsp := some (.ok (.bytes out)) }
     let idOutOfRange (i : Instr) : Prop := exec i s = .next { s with rsp := some (.err .idOutOfRange 0) }
     (host.toNat ≤ 127 → motor.toNat ≤ 127 →
       draw (.ct3Enable host motor) (.encEnable host motor) ∧
       draw (.ct4Disable host motor) (.encDisable host motor) ∧
       draw (.ct18WriteParam host motor index value) (.encWriteFloat host motor index value)) ∧
     (127 < host.toNat ∨ 127 < motor.toNat →
       idOutOfRange (.ct3Enable host motor) ∧ idOutOfRange (.ct4Disable host motor) ∧
       idOutOfRange (.ct18WriteParam host motor index value)))

/-- 42_command_encoder.md R172, 30_encoding.md R83, R85: FRAME.DEC of a write-float command recovers the payload, and
ID.UNPACK of its identifier recovers type 18, zeros, host and motor. -/
def Obligations.CommandFramesCarryTheirOperands : Prop :=
  ∀ (host motor : Byte) (index : Half) (value : Word) (s : State), host.toNat ≤ 127 → motor.toNat ≤ 127 →
    ∃ (out : Buffer) (id : CanId) (p0 p1 p4 p5 p6 p7 : Byte),
      exec (.encWriteFloat host motor index value) s = .next { s with rsp := some (.ok (.bytes out)) } ∧
      exec (.frameDec out) s = .next { s with rsp := some (.ok (.frame .extData id 8 [p0, p1, 0, 0, p4, p5, p6, p7])) } ∧
      exec (.idUnpack id) s = .next { s with rsp := some (.ok (.idFields 18 0 host motor)) } ∧
      index.toNat = p0.toNat + 2 ^ 8 * p1.toNat ∧
      value.toNat = p4.toNat + 2 ^ 8 * p5.toNat + 2 ^ 16 * p6.toNat + 2 ^ 24 * p7.toNat

/-- 30_encoding.md R105: each pseudo-operation expands to exactly one operation, for every spelling of its operands. -/
def Obligations.PseudoOperationsExpand : Prop :=
  ∀ h m v : List Char,
    parseOperation "ENC.SPEED_REF".toList [.word h, .comma, .word m, .comma, .word v] =
      parseOperation "ENC.WRITE_FLOAT".toList
        [.word h, .comma, .word m, .comma, .word "0x700A".toList, .comma, .word v] ∧
    parseOperation "ENC.SPEED_MODE".toList [.word h, .comma, .word m] =
      parseOperation "ENC.RUN_MODE".toList [.word h, .comma, .word m, .comma, .word "SPEED".toList]

/-! The response decoder. -/

/-- 43_response_decoder.md R201, R200: DEC.RESPONSE answers any buffer whose length is not 26 with `MalformedFrame`, whatever
else is wrong with it; on a buffer of 26 bytes the errors of FRAME.DEC propagate unchanged. -/
def Obligations.LengthThenFrameErrorsComeFirst : Prop :=
  ∀ (input : Buffer) (s : State),
    (input.length ≠ 26 → exec (.decResponse input) s = .next { s with rsp := some (.err .malformedFrame 0) }) ∧
    ∀ (k : ErrKind) (v : BitVec 5), input.length = 26 →
      exec (.frameDec input) s = .next { s with rsp := some (.err k v) } →
      exec (.decResponse input) s = .next { s with rsp := some (.err k v) }

/-- 43_response_decoder.md R202, R204: on a buffer of 26 bytes that FRAME.DEC accepts, the communication type decides: 2 gives a
`Feedback`, 17 a `Param`, 0 `NotImplemented`, and any other value `UnknownCommunicationType` with that value. What the two
results hold is ReplyLinesDecode's. -/
def Obligations.ResponseDispatchesOnTheType : Prop :=
  ∀ (input : Buffer) (s : State) (id : CanId) (payload : Buffer), input.length = 26 →
    exec (.frameDec input) s = .next { s with rsp := some (.ok (.frame .extData id 8 payload)) } →
    (let ct := id.toNat / 2 ^ 24
     let answers (r : Response) : Prop := exec (.decResponse input) s = .next { s with rsp := some r }
     (ct = 2 → ∃ host motor faults mode angle speed torque temp,
       answers (.ok (.feedback host motor faults mode angle speed torque temp))) ∧
     (ct = 17 → ∃ host motor index value, answers (.ok (.param host motor index value))) ∧
     (ct = 0 → answers (.err .notImplemented 0)) ∧
     (ct ∉ [0, 2, 17] → answers (.err .unknownCommunicationType (BitVec.ofNat 5 ct))))

/-- 43_response_decoder.md R200, R205, R207; 30_encoding.md R84, R86, R87: DEC.RESPONSE of a 26-byte line of type 2 or 17, in
either case of its digits, completes with the `Feedback` or the `Param` that its characters spell. -/
def Obligations.ReplyLinesDecode : Prop :=
  ∀ (input : Buffer) (ids data : List (BitVec 4)) (s : State),
    input.length = 26 → input.head? = some 0x54 → input[9]? = some 0x38 →
    ((input.drop 1).take 8).map hexval = ids.map some → (input.drop 10).map hexval = data.map some →
    (let id := parseHex ids
     let byte (k : Nat) : Byte := BitVec.ofNat 8 ((data.getD (2 * k) 0).toNat * 16 + (data.getD (2 * k + 1) 0).toNat)
     let physical (q : Quantity) (k : Nat) : Word :=
       F32.bits32 (qDecode q (BitVec.ofNat 16 ((byte k).toNat * 256 + (byte (k + 1)).toNat)))
     (id / 2 ^ 24 = 2 → exec (.decResponse input) s = .next { s with rsp := some (.ok (.feedback
       (BitVec.ofNat 8 id) (BitVec.ofNat 8 (id / 2 ^ 8)) (BitVec.ofNat 6 (id / 2 ^ 16)) (BitVec.ofNat 2 (id / 2 ^ 22))
       (physical .angle 0) (physical .speed 2) (physical .torque 4) (physical .temp 6))) }) ∧
     (id / 2 ^ 24 = 17 → exec (.decResponse input) s = .next { s with rsp := some (.ok (.param
       (BitVec.ofNat 8 id) (BitVec.ofNat 8 (id / 2 ^ 8)) (BitVec.ofNat 16 ((byte 0).toNat + 2 ^ 8 * (byte 1).toNat))
       ⟨byte 4, byte 5, byte 6, byte 7⟩)) }))

/-- 43_response_decoder.md R205: a status report decodes to its ids, faults and mode, and to the four quantities of its
big-endian raw words, each with the bits that Q.DEC gives it.
Running the rows of a marker byte or a communication type on their own is the model's choice (notes/assumptions/3.md). -/
def Obligations.StatusReportDecodesToFeedback : Prop :=
  ∀ (mode : BitVec 2) (faults : BitVec 6) (motor host : Byte) (p : Bytes8) (s : State),
    (let raw (hi lo : Byte) : Half := BitVec.ofNat 16 (hi.toNat * 256 + lo.toNat)
     ∃ angle speed torque temp : Word,
       exec (.ct2StatusReport mode faults motor host p) s =
         .next { s with rsp := some (.ok (.feedback host motor faults mode angle speed torque temp)) } ∧
       exec (.qDec .angle (raw p.b0 p.b1)) s = .next { s with rsp := some (.ok (.f32 angle)) } ∧
       exec (.qDec .speed (raw p.b2 p.b3)) s = .next { s with rsp := some (.ok (.f32 speed)) } ∧
       exec (.qDec .torque (raw p.b4 p.b5)) s = .next { s with rsp := some (.ok (.f32 torque)) } ∧
       exec (.qDec .temp (raw p.b6 p.b7)) s = .next { s with rsp := some (.ok (.f32 temp)) })

/-- 43_response_decoder.md R207: a parameter reply decodes to its ids, its little-endian index and its raw value bytes;
bits 23-16 and payload bytes 2-3 are not read.
Running the rows of a marker byte or a communication type on their own is the model's choice (notes/assumptions/3.md). -/
def Obligations.ParameterReplyDecodesToParam : Prop :=
  ∀ (mid motor host : Byte) (p : Bytes8) (s : State), ∃ index : Half,
    exec (.ct17ReadParam mid motor host p) s =
      .next { s with rsp := some (.ok (.param host motor index ⟨p.b4, p.b5, p.b6, p.b7⟩)) } ∧
    index.toNat = p.b0.toNat + 2 ^ 8 * p.b1.toNat

/-- 43_response_decoder.md R203: a device-id broadcast is `NotImplemented`, and none of its fields is decoded.
Running the rows of a marker byte or a communication type on their own is the model's choice (notes/assumptions/3.md). -/
def Obligations.DeviceIdBroadcastIsNotImplemented : Prop :=
  ∀ (low : BitVec 24) (p : Bytes8) (s : State),
    exec (.ct0DeviceId low p) s = .next { s with rsp := some (.err .notImplemented 0) }

/-- 43_response_decoder.md R208: DEC.RESPONSE completes on every buffer, with one complete `Feedback` or `Param` or an
error. -/
def Obligations.ResponseIsAllOrNothing : Prop :=
  ∀ (input : Buffer) (s : State), ∃ r : Response, exec (.decResponse input) s = .next { s with rsp := some r } ∧
    ((∃ h m f md a sp tq tp, r = .ok (.feedback h m f md a sp tq tp)) ∨ (∃ h m i v, r = .ok (.param h m i v)) ∨
      ∃ k v, r = .err k v)

/-- 43_response_decoder.md R206: identifier bits 21 to 16 are the six fault flags in the source's order, bits 23-22 the mode,
with value 3 reserved. -/
def Obligations.FeedbackFlagsAndMode : Prop :=
  ∀ id : CanId,
    faultSet (CanId.replyFaults id) .notCalibrated = id.getLsbD 21 ∧
    faultSet (CanId.replyFaults id) .hallEncoderFault = id.getLsbD 20 ∧
    faultSet (CanId.replyFaults id) .magneticEncoderFault = id.getLsbD 19 ∧
    faultSet (CanId.replyFaults id) .overtemperature = id.getLsbD 18 ∧
    faultSet (CanId.replyFaults id) .overcurrent = id.getLsbD 17 ∧
    faultSet (CanId.replyFaults id) .undervoltage = id.getLsbD 16 ∧
    (CanId.replyMode id).toNat = id.toNat / 2 ^ 22 % 4 ∧
    MotorMode.ofField 0 = .reset ∧ MotorMode.ofField 1 = .calibration ∧ MotorMode.ofField 2 = .run ∧
    MotorMode.ofField 3 = .reserved

/-- 60_exceptions.md R251: the status codes of the error kinds, and 0 for a result. -/
def Obligations.StatusCodes : Prop :=
  (∀ r : Result, (Response.ok r).status = 0) ∧
  (∀ v : BitVec 5,
    (Response.err .idOutOfRange v).status = 1 ∧ (Response.err .malformedFrame v).status = 2 ∧
    (Response.err .invalidHexDigit v).status = 3 ∧ (Response.err .invalidNumericValue v).status = 4 ∧
    (Response.err .unsupportedFrameKind v).status = 5 ∧ (Response.err .unknownCommunicationType v).status = 6 ∧
    (Response.err .notImplemented v).status = 7 ∧ (Response.err .illegalOperation v).status = 8 ∧
    (Response.err .contractViolation v).status = 9)

/-! Quantization and binary32. -/

/-- 44_quantization_lut.md R230, R231, R235; 10_state.md R40: Q.DEC completes on every (q, raw) with the three roundings of
the linear map, or with `raw / 10` for temperature. -/
def Obligations.QDecIsTheLinearMap : Prop :=
  ∀ (raw : Half) (s : State),
    (let linear (min range : Word) : F32 :=
       F32.add (F32.div (F32.mul (F32.toF32 raw.toNat) (F32.fromBits32 range)) (F32.fromBits32 0x477FFF00)) (F32.fromBits32 min)
     let f32 (x : F32) : State := { s with rsp := some (.ok (.f32 (F32.bits32 x))) }
     exec (.qDec .angle raw) s = .next (f32 (linear 0xC1490FDB 0x41C90FDB)) ∧
     exec (.qDec .speed raw) s = .next (f32 (linear 0xC1F00000 0x42700000)) ∧
     exec (.qDec .torque raw) s = .next (f32 (linear 0xC1400000 0x41C00000)) ∧
     exec (.qDec .temp raw) s = .next (f32 (F32.div (F32.toF32 raw.toNat) (F32.fromBits32 0x41200000))))

/-- 44_quantization_lut.md R230: a decoded angle, speed or torque is finite and lies between `min` and `min + range`. -/
def Obligations.DecodedQuantitiesAreInRange : Prop :=
  ∀ (q : Quantity) (raw : Half), q ≠ .temp →
    F32.isFinite (qDecode q raw) = true ∧
    (F32.fromBits32 (lutMin q)).units ≤ (qDecode q raw).units ∧
    (qDecode q raw).units ≤ (F32.add (F32.fromBits32 (lutMin q)) (F32.fromBits32 (lutRange q))).units

/-- 44_quantization_lut.md R232, R234, R236: Q.ENC of every finite value completes: the scaled value is never NaN, and the
answer is it rounded and clamped. -/
def Obligations.QEncCompletesOnFiniteValues : Prop :=
  ∀ (q : Quantity) (value : Word) (s : State), F32.isFinite (F32.fromBits32 value) = true →
    (let t := F32.div (F32.mul (F32.sub (F32.fromBits32 value) (F32.fromBits32 (lutMin q))) (F32.fromBits32 0x477FFF00))
       (F32.fromBits32 (lutRange q))
     F32.isNaN t = false ∧ ∃ r, roundHalfAway t = .ok r ∧ exec (.qEnc q value) s = .next { s with rsp := some (.ok (.u16 (clamp r))) })

/-- 44_quantization_lut.md R236: a NaN (an exponent of all ones with any sign and fraction) and an infinity are
`InvalidNumericValue`. -/
def Obligations.QEncRejectsNonFiniteValues : Prop :=
  ∀ (q : Quantity) (value : Word) (s : State), value.toNat / 2 ^ 23 % 2 ^ 8 = 255 →
    exec (.qEnc q value) s = .next { s with rsp := some (.err .invalidNumericValue 0) }

/-- 44_quantization_lut.md R234: `Clamp` on every integer and infinity; and a finite value below `min` encodes to 0, one above
`min + range` to 65535, with no error. -/
def Obligations.OutOfRangeValuesClamp : Prop :=
  (clamp .negInf = 0 ∧ clamp .posInf = 65535 ∧
    ∀ z : Int, (z < 0 → clamp (.int z) = 0) ∧ (65535 < z → clamp (.int z) = 65535) ∧
      (0 ≤ z → z ≤ 65535 → ((clamp (.int z)).toNat : Int) = z)) ∧
  ∀ (q : Quantity) (value : Word) (s : State), F32.isFinite (F32.fromBits32 value) = true →
    ((F32.fromBits32 value).units < (F32.fromBits32 (lutMin q)).units →
      exec (.qEnc q value) s = .next { s with rsp := some (.ok (.u16 0)) }) ∧
    ((F32.fromBits32 (lutMin q)).units + (F32.fromBits32 (lutRange q)).units < (F32.fromBits32 value).units →
      exec (.qEnc q value) s = .next { s with rsp := some (.ok (.u16 65535)) })

/-- 44_quantization_lut.md R237: encoding a decoded raw word gives it back exactly, for every quantity and every raw word. -/
def Obligations.ScalingRoundTripIsExact : Prop :=
  ∀ (q : Quantity) (raw : Half) (s : State), ∃ x : Word,
    exec (.qDec q raw) s = .next { s with rsp := some (.ok (.f32 x)) } ∧
    exec (.qEnc q x) s = .next { s with rsp := some (.ok (.u16 raw)) }

/-- 44_quantization_lut.md R233: rounding gives the nearest integer, and a value halfway between two goes away from zero;
infinities are left as they are. -/
def Obligations.RoundingIsNearestHalvesAway : Prop :=
  (∀ (neg : Bool) (mag : Nat), ∃ n : Nat,
    roundHalfAway (.fin neg mag) = .ok (.int (if neg then -(n : Int) else (n : Int))) ∧
    2 * mag < (2 * n + 1) * 2 ^ 149 ∧ 2 * n * 2 ^ 149 ≤ 2 * mag + 2 ^ 149) ∧
  roundHalfAway (.inf false) = .ok .posInf ∧ roundHalfAway (.inf true) = .ok .negInf

/-- 00_scope.md R10: the rounded pattern of a value is a nearest finite pattern, and of two equally near the even one. -/
def Obligations.RoundsToNearestTiesToEven : Prop :=
  ∀ num den w : Nat, 0 < den → F32.roundPattern num den < F32.infPattern → w < F32.infPattern →
    F32.patternDistance num den (F32.roundPattern num den) ≤ F32.patternDistance num den w ∧
    (F32.patternDistance num den (F32.roundPattern num den) = F32.patternDistance num den w →
      w ≠ F32.roundPattern num den → F32.roundPattern num den % 2 = 0)

/-- IEEE-754 overflow under 00_scope.md R10's rounding: from half a step above the largest finite value on, the result is an
infinity. -/
def Obligations.RoundingOverflowsToInfinity : Prop :=
  ∀ num den : Nat, 0 < den →
    (F32.infPattern ≤ F32.roundPattern num den ↔ (2 ^ 25 - 1) * 2 ^ 252 * den ≤ num)

/-- 00_scope.md R10: each of the four operations on finite numbers is the rounding, once, of the exact real result. -/
def Obligations.EachOperationRoundsOnce : Prop :=
  ∀ (a b : Bool) (x y : Nat),
    (let u := F32.fin a x
     let v := F32.fin b y
     let rounds (r : F32) (exact : Rat) : Prop := ∃ (neg : Bool) (num den : Nat), 0 < den ∧ r = F32.ofRat neg num den ∧
       exact = (if neg then -1 else 1) * ((num : Rat) / (den : Rat))
     rounds (F32.add u v) (u.units + v.units) ∧
     rounds (F32.sub u v) (u.units - v.units) ∧
     rounds (F32.mul u v) (u.units * v.units / 2 ^ 149) ∧
     (y ≠ 0 → rounds (F32.div u v) (u.units * 2 ^ 149 / v.units)))

/-- 00_scope.md R10: `bits32` and `fromBits32` are inverse: on every pattern, those of a NaN among them, and on every value
(a rounded real, an infinity it overflows to, a NaN). -/
def Obligations.BitPatternsRoundTrip : Prop :=
  (∀ w : Word, F32.bits32 (F32.fromBits32 w) = w) ∧
  (∀ (neg : Bool) (num den : Nat), 0 < den → F32.fromBits32 (F32.bits32 (F32.ofRat neg num den)) = F32.ofRat neg num den) ∧
  ∀ (neg : Bool) (k : Fin 0x7FFFFF), F32.fromBits32 (F32.bits32 (.nan neg k)) = .nan neg k

/-- 00_scope.md R10: `toF32` of an integer up to 65535 is exact. -/
def Obligations.SmallIntegersAreExact : Prop := ∀ n : Nat, n ≤ 65535 → F32.toF32 n = .fin false (n * 2 ^ 149)
end

