-- ==== Sys2Proof/Laws/State.lean ====
section
/-! SUPPORT. One lemma per field for each update of the state, so that no later proof unfolds one. -/

namespace Sys2Proof.Machine

@[simp] theorem State.respond_rsp (s : State) (r : Response) : (s.respond r).rsp = some r := rfl
@[simp] theorem State.respond_port (s : State) (r : Response) : (s.respond r).port = s.port := rfl
@[simp] theorem State.respond_host (s : State) (r : Response) : (s.respond r).host = s.host := rfl
@[simp] theorem State.respond_observed (s : State) (r : Response) : (s.respond r).observed = s.observed := rfl

@[simp] theorem State.takeError_rsp (s : State) (k : ErrKind) (v : BitVec 5) : (s.takeError k v).rsp = some (.err k v) := rfl
@[simp] theorem State.takeError_port (s : State) (k : ErrKind) (v : BitVec 5) : (s.takeError k v).port = s.port := rfl
@[simp] theorem State.takeError_host (s : State) (k : ErrKind) (v : BitVec 5) : (s.takeError k v).host = s.host := rfl
@[simp] theorem State.takeError_observed (s : State) (k : ErrKind) (v : BitVec 5) :
    (s.takeError k v).observed = s.observed := rfl

@[simp] theorem State.applyReset_rsp (s : State) : s.applyReset.rsp = none := rfl
@[simp] theorem State.applyReset_port (s : State) : s.applyReset.port = none := rfl
@[simp] theorem State.applyReset_host (s : State) : s.applyReset.host = s.host := rfl
@[simp] theorem State.applyReset_observed (s : State) : s.applyReset.observed = s.observed := rfl

@[simp] theorem State.withPresented_rsp (s : State) (p : Presented) : (s.withPresented p).rsp = s.rsp := rfl
@[simp] theorem State.withPresented_port (s : State) (p : Presented) : (s.withPresented p).port = some p := rfl
@[simp] theorem State.withPresented_host (s : State) (p : Presented) :
    (s.withPresented p).host = withoutPendingReset s.host := rfl
@[simp] theorem State.withPresented_observed (s : State) (p : Presented) : (s.withPresented p).observed = s.observed := rfl

theorem State.respond_eq (s : State) (r : Response) : s.respond r = { s with rsp := some r } := rfl
theorem State.takeError_eq (s : State) (k : ErrKind) (v : BitVec 5) : s.takeError k v = { s with rsp := some (.err k v) } := rfl

/-- No reset stands at the head of the moves that are left. -/
theorem head_withoutPendingReset (moves : List HostMove) : (withoutPendingReset moves).head? ≠ some .reset := by
  induction moves with
  | nil => simp [withoutPendingReset]
  | cons m rest ih => cases m <;> simp_all [withoutPendingReset]

end Sys2Proof.Machine
end

