-- ==== Sys2Proof/Laws/Ops.lean ====
section
/-! SUPPORT. What each shared operation can do, said once: the checks and buffer accesses of a rule, and the end of an
operation. -/

namespace Sys2Proof.Machine

variable {α β : Type}

@[simp] theorem ok_bind (a : α) (f : α → Op β) : ((Except.ok a : Op α) >>= f) = f a := rfl
@[simp] theorem error_bind (e : Stop) (f : α → Op β) : ((Except.error e : Op α) >>= f) = Except.error e := rfl
@[simp] theorem pure_eq_ok (a : α) : (pure a : Op α) = Except.ok a := rfl
@[simp] theorem raise_bind (k : ErrKind) (v : BitVec 5) (f : α → Op β) : (raise k v >>= f) = raise k v := rfl

theorem raise_eq (k : ErrKind) (v : BitVec 5) : (raise k v : Op α) = Except.error (.raise k v) := rfl

/-- A computation that answers a value has gone through both of its parts. -/
theorem bind_eq_ok {x : Op α} {f : α → Op β} {b : β} : (x >>= f) = .ok b ↔ ∃ a, x = .ok a ∧ f a = .ok b := by
  cases x <;> simp

/-- A computation that stops has stopped in its first part or in its second. -/
theorem bind_eq_error {x : Op α} {f : α → Op β} {e : Stop} :
    (x >>= f) = .error e ↔ x = .error e ∨ ∃ a, x = .ok a ∧ f a = .error e := by
  cases x <;> simp

@[simp] theorem check_pos {p : Prop} [Decidable p] (h : p) (k : ErrKind) : check p k = .ok () := if_pos h
@[simp] theorem check_neg {p : Prop} [Decidable p] (h : ¬ p) (k : ErrKind) : check p k = raise k := if_neg h

theorem check_eq_ok {p : Prop} [Decidable p] {k : ErrKind} {u : Unit} : check p k = .ok u ↔ p := by
  by_cases h : p <;> simp [h, raise_eq]

theorem check_eq_error {p : Prop} [Decidable p] {k : ErrKind} {e : Stop} : check p k = .error e ↔ ¬ p ∧ e = .raise k 0 := by
  by_cases h : p
  · simp [h]
  · simp [h, raise_eq, eq_comm]

theorem memRead_ok {b : Buffer} {addr n : Nat} (h : addr + n ≤ b.length) : memRead b addr n = .ok ((b.drop addr).take n) :=
  if_pos h

theorem memRead_past {b : Buffer} {addr n : Nat} (h : b.length < addr + n) : memRead b addr n = .error (.fault .readPastEnd) :=
  if_neg (by omega)

theorem readByte_ok {b : Buffer} {i : Nat} (h : i < b.length) : readByte b i = .ok b[i] := by
  simp [readByte, h]

/-- A one-byte read is `MemRead(i, 1)`. -/
theorem readByte_eq_memRead (b : Buffer) (i : Nat) : memRead b i 1 = (readByte b i).map fun c => [c] := by
  by_cases h : i < b.length
  · rw [memRead_ok (by omega), readByte_ok h]
    simp [Except.map, List.take_one, h]
  · rw [memRead_past (by omega)]
    simp [readByte, List.getElem?_eq_none (Nat.le_of_not_lt h), Except.map]

@[simp] theorem append_ok (out v : Buffer) : append out v = .ok (out ++ v) := if_pos rfl

@[simp] theorem finish_ok (v : Result) (s : State) : finish (.ok v) s = .next { s with rsp := some (.ok v) } := rfl
@[simp] theorem finish_raise (k : ErrKind) (v : BitVec 5) (s : State) :
    finish (raise k v) s = .next { s with rsp := some (.err k v) } := rfl
@[simp] theorem finish_error_raise (k : ErrKind) (v : BitVec 5) (s : State) :
    finish (.error (.raise k v)) s = .next { s with rsp := some (.err k v) } := rfl
@[simp] theorem finish_fault (f : Fault) (s : State) : finish (.error (.fault f)) s = .fault f := rfl

/-- All that the end of an operation can do: a next state in which `RSP` alone is written, with the result or the error; or a
fault of the model. -/
theorem finish_cases (op : Op Result) (s : State) :
    (∃ v, op = .ok v ∧ finish op s = .next { s with rsp := some (.ok v) }) ∨
    (∃ k v, op = .error (.raise k v) ∧ finish op s = .next { s with rsp := some (.err k v) }) ∨
    ∃ f, op = .error (.fault f) ∧ finish op s = .fault f := by
  match op with
  | .ok v => exact .inl ⟨v, rfl, rfl⟩
  | .error (.raise k v) => exact .inr (.inl ⟨k, v, rfl, rfl⟩)
  | .error (.fault f) => exact .inr (.inr ⟨f, rfl, rfl⟩)

/-- A next state of an operation differs from the state before in `RSP` alone, which holds a response. -/
theorem finish_next {op : Op Result} {s t : State} (h : finish op s = .next t) : ∃ r, t = { s with rsp := some r } := by
  obtain ⟨v, -, e⟩ | ⟨k, v, -, e⟩ | ⟨f, -, e⟩ := finish_cases op s <;> rw [e] at h <;> simp_all
  · exact ⟨_, h.symm⟩
  · exact ⟨_, h.symm⟩

/-- An operation that answers what its rule raises or returns, and never faults. -/
def Op.completes (op : Op α) : Prop := ∀ f, op ≠ .error (.fault f)

theorem Op.completes_ok (a : α) : Op.completes (.ok a : Op α) := by intro f h; cases h
theorem Op.completes_raise (k : ErrKind) (v : BitVec 5) : Op.completes (raise k v : Op α) := by intro f h; cases h
theorem Op.completes_check (p : Prop) [Decidable p] (k : ErrKind) : Op.completes (check p k) := by
  intro f h
  simp [check_eq_error] at h

/-- A sequence completes if its first part does and its second does after every value of the first. -/
theorem Op.completes_bind {x : Op α} {f : α → Op β} (hx : Op.completes x) (hf : ∀ a, x = .ok a → Op.completes (f a)) :
    Op.completes (x >>= f) := by
  intro e h
  rcases bind_eq_error.mp h with h | ⟨a, ha, h⟩
  · exact hx e h
  · exact hf a ha e h

theorem Op.completes_readByte {b : Buffer} {i : Nat} (h : i < b.length) : Op.completes (readByte b i) := by
  rw [readByte_ok h]
  exact Op.completes_ok _

theorem Op.completes_memRead {b : Buffer} {addr n : Nat} (h : addr + n ≤ b.length) : Op.completes (memRead b addr n) := by
  rw [memRead_ok h]
  exact Op.completes_ok _

/-- An operation that completes gives a response in every state. -/
theorem finish_completes {op : Op Result} (h : Op.completes op) : ∃ r, ∀ s, finish op s = .next { s with rsp := some r } := by
  match op with
  | .ok v => exact ⟨.ok v, fun _ => rfl⟩
  | .error (.raise k v) => exact ⟨.err k v, fun _ => rfl⟩
  | .error (.fault f) => exact absurd rfl (h f)

end Sys2Proof.Machine
end

