-- ==== Sys2Proof/Laws/Operands.lean ====
section
/-! SUPPORT. Hex characters, hex regions, byte orders and identifier fields: what each reads and writes. -/

namespace Sys2Proof.Machine

/-- Reading a drawn digit gives the nibble back. -/
@[simp] theorem hexval_hexU (n : BitVec 4) : hexval (hexU n) = some n := by revert n; decide

/-- A character has a hex value exactly when it is hex. -/
theorem isSome_hexval (c : Byte) : (hexval c).isSome = isHex c := by revert c; decide

theorem hexval_eq_none {c : Byte} : hexval c = none ↔ isHex c = false := by
  rw [← isSome_hexval]
  cases hexval c <;> simp

/-- A hex region is read in full exactly when each character has its value. -/
theorem hexDigits_eq_ok {cs : Buffer} {ds : List (BitVec 4)} : hexDigits cs = .ok ds ↔ cs.map hexval = ds.map some := by
  induction cs generalizing ds with
  | nil => cases ds <;> simp [hexDigits]
  | cons c cs ih =>
    cases hc : hexval c with
    | none => cases ds <;> simp [hexDigits, hexDigit, hc, raise_eq]
    | some d =>
      cases ds with
      | nil => simp [hexDigits, hexDigit, hc, bind_eq_ok]
      | cons e ds =>
        simp only [hexDigits, hexDigit, hc, ok_bind, bind_eq_ok, pure_eq_ok, List.map_cons, List.cons.injEq, Option.some.injEq]
        constructor
        · rintro ⟨ds', h, h'⟩
          cases h'
          exact ⟨rfl, ih.mp h⟩
        · rintro ⟨rfl, h⟩
          exact ⟨ds, ih.mpr h, rfl⟩

/-- A hex region that is not read in full has a character that is not hex, and is `InvalidHexDigit`. -/
theorem hexDigits_eq_error {cs : Buffer} {e : Stop} :
    hexDigits cs = .error e ↔ e = .raise .invalidHexDigit 0 ∧ ∃ c ∈ cs, isHex c = false := by
  induction cs with
  | nil => simp [hexDigits]
  | cons c cs ih =>
    cases hc : hexval c with
    | none =>
      have step : hexDigits (c :: cs) = .error (.raise .invalidHexDigit 0) := by
        simp only [hexDigits, hexDigit, hc, raise_eq, error_bind]
      rw [step, Except.error.injEq]
      exact ⟨fun h => ⟨h.symm, c, by simp, hexval_eq_none.mp hc⟩, fun h => h.1.symm⟩
    | some d =>
      have hex : isHex c = true := by rw [← isSome_hexval, hc]; rfl
      have step : hexDigits (c :: cs) = (hexDigits cs >>= fun ds => .ok (d :: ds)) := by
        simp only [hexDigits, hexDigit, hc, ok_bind, pure_eq_ok]
      rw [step, bind_eq_error, ih]
      constructor
      · rintro (⟨h, c', hm, hc'⟩ | ⟨_, _, h⟩)
        · exact ⟨h, c', List.mem_cons_of_mem _ hm, hc'⟩
        · cases h
      · rintro ⟨h, c', hm, hc'⟩
        rcases List.mem_cons.mp hm with rfl | hm
        · rw [hex] at hc'; cases hc'
        · exact .inl ⟨h, c', hm, hc'⟩

theorem hexDigits_completes (cs : Buffer) : Op.completes (hexDigits cs) := by
  intro f h
  simp [hexDigits_eq_error] at h

theorem hexDigit_completes (c : Byte) : Op.completes (hexDigit c) := by
  intro f h
  unfold hexDigit at h
  split at h <;> simp [raise_eq] at h

theorem hexDigits_length {cs : Buffer} {ds : List (BitVec 4)} (h : hexDigits cs = .ok ds) : ds.length = cs.length := by
  simpa using (congrArg List.length (hexDigits_eq_ok.mp h)).symm

theorem hexDigits_append {as bs : Buffer} {ds es : List (BitVec 4)} (ha : hexDigits as = .ok ds) (hb : hexDigits bs = .ok es) :
    hexDigits (as ++ bs) = .ok (ds ++ es) := by
  simp [hexDigits_eq_ok] at *
  rw [ha, hb]

/-- Reading what the encoder drew for a list of nibbles. -/
theorem hexDigits_map_hexU (ns : List (BitVec 4)) : hexDigits (ns.map hexU) = .ok ns := by
  simp [hexDigits_eq_ok, Function.comp_def]

/-- `n` hex digits spell a number below `16^n`. -/
theorem parseHex_append (ds : List (BitVec 4)) (d : BitVec 4) : parseHex (ds ++ [d]) = parseHex ds * 16 + d.toNat := by
  simp [parseHex]

theorem parseHex_lt (ds : List (BitVec 4)) : parseHex ds < 16 ^ ds.length := by
  induction ds using List.reverseRecOn with
  | nil => simp [parseHex]
  | append_singleton ds d ih =>
    rw [parseHex_append, List.length_append, List.length_singleton, pow_succ]
    have := d.isLt
    omega

/-- The nibbles of a byte, high first. -/
def nibbles (b : Byte) : List (BitVec 4) := [b.extractLsb' 4 4, b.extractLsb' 0 4]

theorem hexByte_eq (b : Byte) : hexByte b = (nibbles b).map hexU := rfl

theorem nibbles_join (b : Byte) :
    BitVec.ofNat 8 ((b.extractLsb' 4 4).toNat * 16 + (b.extractLsb' 0 4).toNat) = b := by revert b; decide

/-- Pairing the nibbles of bytes gives the bytes back. -/
theorem pairBytes_nibbles (bs : List Byte) : pairBytes (bs.flatMap nibbles) = bs := by
  induction bs with
  | nil => rfl
  | cons b bs ih =>
    rw [List.flatMap_cons, nibbles, List.cons_append, List.cons_append, List.nil_append, pairBytes, nibbles_join, ih]

theorem pairBytes_length (ds : List (BitVec 4)) : (pairBytes ds).length = ds.length / 2 := by
  induction ds using pairBytes.induct with
  | case1 hi lo ds ih => simp [pairBytes, ih]; omega
  | case2 ds h =>
    match ds, h with
    | [], _ => rfl
    | [d], _ => simp [pairBytes]
    | a :: b :: c, h => exact absurd rfl (h a b c)

/-- Reading the drawn bytes of a payload. -/
theorem hexDigits_flatMap_hexByte (bs : List Byte) : hexDigits (bs.flatMap hexByte) = .ok (bs.flatMap nibbles) := by
  rw [show bs.flatMap hexByte = (bs.flatMap nibbles).map hexU by
    rw [List.map_flatMap]; rfl]
  exact hexDigits_map_hexU _

/-- The nibbles of an identifier word, from bit 31 down. -/
def idNibbles (w : Word) : List (BitVec 4) :=
  [w.extractLsb' 28 4, w.extractLsb' 24 4, w.extractLsb' 20 4, w.extractLsb' 16 4,
   w.extractLsb' 12 4, w.extractLsb' 8 4, w.extractLsb' 4 4, w.extractLsb' 0 4]

theorem hexId_eq (w : Word) : hexId w = (idNibbles w).map hexU := rfl

/-- Reading a drawn identifier gives its value back. -/
theorem parseHex_idNibbles (w : Word) : parseHex (idNibbles w) = w.toNat := by
  have := w.isLt
  simp [parseHex, idNibbles, BitVec.extractLsb'_toNat, Nat.shiftRight_eq_div_pow]
  omega

/-- A packed identifier as a number. -/
theorem commandId_toNat (ctype : BitVec 5) (host motor : Byte) :
    (commandId ctype host motor).toNat = ctype.toNat * 2 ^ 24 + host.toNat * 2 ^ 8 + motor.toNat := by
  have := ctype.isLt
  have := host.isLt
  have := motor.isLt
  have hi : host.toNat <<< 8 < 2 ^ 24 := by rw [Nat.shiftLeft_eq]; omega
  have hm : motor.toNat < 2 ^ 8 := by omega
  have sum : ctype.toNat <<< 24 ||| host.toNat <<< 8 ||| motor.toNat =
      ctype.toNat <<< 24 + host.toNat <<< 8 + motor.toNat := by
    rw [← Nat.shiftLeft_add_eq_or_of_lt hi]
    rw [show ctype.toNat <<< 24 + host.toNat <<< 8 = (ctype.toNat * 2 ^ 16 + host.toNat) <<< 8 by
      simp only [Nat.shiftLeft_eq]; omega]
    rw [← Nat.shiftLeft_add_eq_or_of_lt hm]
  simp only [commandId, BitVec.toNat_or, BitVec.toNat_shiftLeft, BitVec.toNat_setWidth]
  rw [Nat.mod_eq_of_lt (a := ctype.toNat) (by omega), Nat.mod_eq_of_lt (a := host.toNat) (by omega),
    Nat.mod_eq_of_lt (a := motor.toNat) (by omega), Nat.mod_eq_of_lt (a := ctype.toNat <<< 24) (by rw [Nat.shiftLeft_eq]; omega),
    Nat.mod_eq_of_lt (a := host.toNat <<< 8) (by omega), sum]
  simp only [Nat.shiftLeft_eq]

end Sys2Proof.Machine
end

