-- ==== Sys2Proof/Laws/FrameCodec.lean ====
section
/-! SUPPORT. What the frame encoder and decoder can do: the frame drawn, the conditions under which a line is decoded, and
that neither faults. -/

namespace Sys2Proof.Machine

@[simp] theorem appendHex_eq (out : Buffer) (bs : List Byte) : appendHex out bs = .ok (out ++ bs.flatMap hexByte) := by
  induction bs generalizing out with
  | nil => simp [appendHex]
  | cons b bs ih => simp [appendHex, ih]

/-- The characters of a legal frame (30_encoding.md R80). -/
def frameText (id : Word) (plen : BitVec 4) (bs : List Byte) : Buffer :=
  MARK_EXT_DATA :: (hexId id ++ hexU plen :: bs.flatMap hexByte)

/-- FRAME.ENC in its legal case. -/
theorem frameEnc_legal {id : Word} {plen : BitVec 4} {payload : Bytes8} (hid : id.toNat ≤ CAN_ID_MAX) (hp : plen.toNat ≤ MAX_DLC) :
    frameEnc .extData id plen payload = .ok (.bytes (frameText id plen (payload.toList.take plen.toNat))) := by
  simp [frameEnc, frameText, hid, hp]

/-- FRAME.ENC refuses another kind before it looks at anything else. -/
theorem frameEnc_otherKind {kind : FrameKind} (h : kind ≠ .extData) (id : Word) (plen : BitVec 4) (payload : Bytes8) :
    frameEnc kind id plen payload = raise .unsupportedFrameKind := by
  simp [frameEnc, h]

/-- FRAME.ENC of a broken contract. -/
theorem frameEnc_contract {id : Word} {plen : BitVec 4} (payload : Bytes8)
    (h : CAN_ID_MAX < id.toNat ∨ MAX_DLC < plen.toNat) :
    frameEnc .extData id plen payload = raise .contractViolation := by
  by_cases hid : id.toNat ≤ CAN_ID_MAX
  · simp [frameEnc, hid, show ¬ plen.toNat ≤ MAX_DLC by omega]
  · simp [frameEnc, hid]

/-- FRAME.ENC has these three ends and no other. -/
theorem frameEnc_cases (kind : FrameKind) (id : Word) (plen : BitVec 4) (payload : Bytes8) :
    frameEnc kind id plen payload = raise .unsupportedFrameKind ∨
    frameEnc kind id plen payload = raise .contractViolation ∨
    (id.toNat ≤ CAN_ID_MAX ∧ plen.toNat ≤ MAX_DLC ∧
      frameEnc kind id plen payload = .ok (.bytes (frameText id plen (payload.toList.take plen.toNat)))) := by
  by_cases hk : kind = .extData
  · subst hk
    by_cases h : CAN_ID_MAX < id.toNat ∨ MAX_DLC < plen.toNat
    · exact .inr (.inl (frameEnc_contract payload h))
    · exact .inr (.inr ⟨by omega, by omega, frameEnc_legal (by omega) (by omega)⟩)
  · exact .inl (frameEnc_otherKind hk id plen payload)

theorem frameEnc_completes (kind : FrameKind) (id : Word) (plen : BitVec 4) (payload : Bytes8) :
    Op.completes (frameEnc kind id plen payload) := by
  rcases frameEnc_cases kind id plen payload with h | h | ⟨-, -, h⟩ <;> rw [h]
  · exact Op.completes_raise _ _
  · exact Op.completes_raise _ _
  · exact Op.completes_ok _

theorem length_flatMap_hexByte (bs : List Byte) : (bs.flatMap hexByte).length = 2 * bs.length := by
  induction bs with
  | nil => rfl
  | cons b bs ih => simp [List.flatMap_cons, hexByte, ih]; omega

/-- The length invariant (40_slcan_frame_codec.md R135), at the level of the drawn text. -/
theorem frameText_length (id : Word) (plen : BitVec 4) (bs : List Byte) :
    (frameText id plen bs).length = FRAME_LEN bs.length := by
  have := length_flatMap_hexByte bs
  simp only [frameText, List.length_cons, List.length_append, hexId, this, FRAME_LEN, HDR_LEN, List.length_nil]
  omega

/-- A marked line that passes every check: the digits it holds and the fields they spell. -/
theorem decodeMarked_eq_ok {input : Buffer} {f : DecodedFrame} :
    decodeMarked input = .ok f ↔ ∃ ids dlc data, ((input.drop 1).take 8).map hexval = ids.map some ∧
      (input[9]?).bind hexval = some dlc ∧ (input.drop 10).map hexval = data.map some ∧ parseHex ids ≤ CAN_ID_MAX ∧
      dlc.toNat ≤ MAX_DLC ∧ input.length = FRAME_LEN dlc.toNat ∧
      f = { kind := .extData, id := BitVec.ofNat 29 (parseHex ids), dlc := dlc, payload := pairBytes data } := by
  constructor
  · intro h
    simp only [decodeMarked, bind_eq_ok, check_eq_ok, pure_eq_ok, Except.ok.injEq] at h
    obtain ⟨-, hlen, region, hr, ids, hids, -, hid, c, hc, dlc, hd, -, hdlc, -, hn, body, hb, data, hdata, rfl⟩ := h
    have h10 : HDR_LEN ≤ input.length := hlen
    simp only [HDR_LEN] at h10
    rw [memRead_ok (by omega)] at hr
    rw [readByte_ok (by omega)] at hc
    simp only [FRAME_LEN, HDR_LEN] at hn
    rw [memRead_ok (by omega)] at hb
    cases hr; cases hc; cases hb
    refine ⟨ids, dlc, data, hexDigits_eq_ok.mp hids, ?_, ?_, hid, hdlc, by simp only [FRAME_LEN, HDR_LEN]; omega, rfl⟩
    · unfold hexDigit at hd
      split at hd
      · cases hd; rw [List.getElem?_eq_getElem (by omega)]; assumption
      · simp [raise_eq] at hd
    · rw [← hexDigits_eq_ok.mp hdata, List.take_of_length_le (by simp; omega)]
  · rintro ⟨ids, dlc, data, hids, hd, hdata, hid, hdlc, hn, rfl⟩
    have hn' := hn
    simp only [FRAME_LEN, HDR_LEN] at hn'
    have hc : hexDigit (input[9]'(by omega)) = .ok dlc := by
      rw [List.getElem?_eq_getElem (by omega), Option.bind_some] at hd
      simp [hexDigit, hd]
    have hb : hexDigits ((input.drop 10).take (2 * dlc.toNat)) = .ok data := by
      rw [hexDigits_eq_ok, List.take_of_length_le (by simp; omega), hdata]
    simp only [decodeMarked]
    rw [check_pos (by simp only [HDR_LEN]; omega), ok_bind, memRead_ok (by omega), ok_bind, hexDigits_eq_ok.mpr hids, ok_bind,
      check_pos hid, ok_bind, readByte_ok (by omega), ok_bind, hc, ok_bind, check_pos hdlc, ok_bind, check_pos hn, ok_bind,
      memRead_ok (by omega), ok_bind, hb]
    rfl

theorem decodeMarked_completes (input : Buffer) : Op.completes (decodeMarked input) := by
  refine Op.completes_bind (Op.completes_check _ _) fun _ h => ?_
  have h10 := check_eq_ok.mp h
  simp only [HDR_LEN] at h10
  refine Op.completes_bind (Op.completes_memRead (by omega)) fun _ _ => ?_
  refine Op.completes_bind (hexDigits_completes _) fun _ _ => ?_
  refine Op.completes_bind (Op.completes_check _ _) fun _ _ => ?_
  refine Op.completes_bind (Op.completes_readByte (by omega)) fun _ _ => ?_
  refine Op.completes_bind (hexDigit_completes _) fun dlc _ => ?_
  refine Op.completes_bind (Op.completes_check _ _) fun _ _ => ?_
  refine Op.completes_bind (Op.completes_check _ _) fun _ hn => ?_
  have hn := check_eq_ok.mp hn
  simp only [FRAME_LEN, HDR_LEN] at hn
  refine Op.completes_bind (Op.completes_memRead (by omega)) fun _ _ => ?_
  exact Op.completes_bind (hexDigits_completes _) fun _ _ => Op.completes_ok _

/-- What each frame kind leads to (40_slcan_frame_codec.md R131). -/
theorem decodeByKind_other {kind : FrameKind} (h : kind ≠ .extData) (input : Buffer) :
    decodeByKind (some kind) input = raise .unsupportedFrameKind := by
  cases kind <;> simp_all [decodeByKind]

theorem decodeByKind_completes (kind : Option FrameKind) (input : Buffer) : Op.completes (decodeByKind kind input) := by
  match kind with
  | some .extData => exact decodeMarked_completes input
  | some .stdData => exact Op.completes_raise _ _
  | some .extRemote => exact Op.completes_raise _ _
  | some .stdRemote => exact Op.completes_raise _ _
  | none => exact Op.completes_raise _ _

@[simp] theorem frameDec_nil : frameDec [] = raise .malformedFrame := by simp [frameDec]

@[simp] theorem frameDec_cons (m : Byte) (rest : Buffer) : frameDec (m :: rest) = decodeByKind (marker m) (m :: rest) := by
  simp [frameDec, readByte]

theorem frameDec_completes (input : Buffer) : Op.completes (frameDec input) := by
  cases input with
  | nil => rw [frameDec_nil]; exact Op.completes_raise _ _
  | cons m rest => rw [frameDec_cons]; exact decodeByKind_completes _ _

@[simp] theorem marker_markByte (k : FrameKind) : marker k.markByte = some k := by cases k <;> decide

/-- A frame kind comes from its own marker byte and from no other (40_slcan_frame_codec.md R131). -/
theorem marker_eq_some {m : Byte} {k : FrameKind} : marker m = some k ↔ m = k.markByte := by
  revert m
  cases k <;> decide

/-- FRAME.DEC accepts a line only under the extended-data marker, and then as `decodeMarked` does. -/
theorem frameDec_eq_ok {input : Buffer} {f : DecodedFrame} :
    frameDec input = .ok f ↔ input.head? = some MARK_EXT_DATA ∧ decodeMarked input = .ok f := by
  cases input with
  | nil => simp [raise_eq]
  | cons m rest =>
    rw [frameDec_cons, List.head?_cons, Option.some.injEq]
    cases hk : marker m with
    | none =>
      have : m ≠ MARK_EXT_DATA := by rintro rfl; revert hk; decide
      simp [decodeByKind, raise_eq, this]
    | some k =>
      rw [marker_eq_some] at hk
      subst hk
      cases k with
      | extData => simp [decodeByKind, FrameKind.markByte, MARK_EXT_DATA]
      | stdData => simp [decodeByKind, FrameKind.markByte, MARK_EXT_DATA, raise_eq]
      | extRemote => simp [decodeByKind, FrameKind.markByte, MARK_EXT_DATA, raise_eq]
      | stdRemote => simp [decodeByKind, FrameKind.markByte, MARK_EXT_DATA, raise_eq]

/-- A decoded frame is within the limits of its result variant (10_state.md R36). -/
theorem decodeMarked_limits {input : Buffer} {f : DecodedFrame} (h : decodeMarked input = .ok f) :
    f.kind = .extData ∧ f.dlc.toNat ≤ MAX_DLC ∧ f.payload.length = f.dlc.toNat ∧ input.length = FRAME_LEN f.dlc.toNat := by
  obtain ⟨ids, dlc, data, -, -, hdata, -, hdlc, hn, rfl⟩ := decodeMarked_eq_ok.mp h
  refine ⟨rfl, hdlc, ?_, hn⟩
  have := congrArg List.length hdata
  simp only [FRAME_LEN, HDR_LEN, List.length_map, List.length_drop] at hn this
  simp only [pairBytes_length]
  omega

/-- Decoding drawn text gives its fields back. -/
theorem decodeMarked_frameText {id : Word} {plen : BitVec 4} {bs : List Byte} (hid : id.toNat ≤ CAN_ID_MAX)
    (hp : plen.toNat ≤ MAX_DLC) (hb : bs.length = plen.toNat) :
    decodeMarked (frameText id plen bs) = .ok { kind := .extData, id := id.setWidth 29, dlc := plen, payload := bs } := by
  rw [decodeMarked_eq_ok]
  refine ⟨idNibbles id, plen, bs.flatMap nibbles, ?_, ?_, ?_, ?_, hp, ?_, ?_⟩
  · simp [frameText, hexId_eq, idNibbles]
  · simp [frameText, hexId]
  · have : (frameText id plen bs).drop 10 = bs.flatMap hexByte := by simp [frameText, hexId]
    rw [this]
    exact hexDigits_eq_ok.mp (hexDigits_flatMap_hexByte bs)
  · rwa [parseHex_idNibbles]
  · rw [frameText_length, hb]
  · rw [parseHex_idNibbles, pairBytes_nibbles]
    congr 1

end Sys2Proof.Machine
end

