-- ==== Sys2Proof/Laws/CommandEncoder.lean ====
section
/-! SUPPORT. The shared builder of the commands, and ID.PACK: their two ends each. -/

namespace Sys2Proof.Machine

/-- Both ids are legal. -/
abbrev idsLegal (host motor : Byte) : Prop := host.toNat ≤ ID_MAX ∧ motor.toNat ≤ ID_MAX

theorem command_outOfRange {host motor : Byte} (h : ¬ idsLegal host motor) (ctype : BitVec 5) (plen : BitVec 4) (payload : Bytes8) :
    command ctype host motor plen payload = raise .idOutOfRange := by
  simp only [command, checkIds, check_neg h, raise_bind]

theorem commandId_word (ctype : BitVec 5) (host motor : Byte) :
    ((commandId ctype host motor).setWidth 32).toNat = (commandId ctype host motor).toNat := by
  have := (commandId ctype host motor).isLt
  rw [BitVec.toNat_setWidth, Nat.mod_eq_of_lt (by omega)]

/-- A command with legal ids is a frame: the contract checks of FRAME.ENC cannot fail (42_command_encoder.md R172). -/
theorem command_legal {host motor : Byte} (h : idsLegal host motor) (ctype : BitVec 5) {plen : BitVec 4}
    (hp : plen.toNat ≤ MAX_DLC) (payload : Bytes8) :
    command ctype host motor plen payload =
      .ok (.bytes (frameText ((commandId ctype host motor).setWidth 32) plen (payload.toList.take plen.toNat))) := by
  have hid : ((commandId ctype host motor).setWidth 32).toNat ≤ CAN_ID_MAX := by
    have := (commandId ctype host motor).isLt
    rw [commandId_word]
    simp only [CAN_ID_MAX]
    omega
  simp only [command, checkIds, check_pos h, ok_bind]
  exact frameEnc_legal hid hp

theorem command_completes (ctype : BitVec 5) (host motor : Byte) (plen : BitVec 4) (payload : Bytes8) :
    Op.completes (command ctype host motor plen payload) :=
  Op.completes_bind (Op.completes_check _ _) fun _ _ => frameEnc_completes _ _ _ _

theorem idPack_completes (ctype : BitVec 5) (host motor : Byte) : Op.completes (idPack ctype host motor) :=
  Op.completes_bind (Op.completes_check _ _) fun _ _ =>
    Op.completes_bind (Op.completes_check _ _) fun _ _ => Op.completes_ok _

theorem idPack_eq_ok {ctype : BitVec 5} {host motor : Byte} {r : Result} :
    idPack ctype host motor = .ok r ↔
      idsLegal host motor ∧ ctype.toNat ≤ CTYPE_MAX ∧ r = .id (commandId ctype host motor) := by
  simp only [idPack, checkIds, bind_eq_ok, check_eq_ok, pure_eq_ok, Except.ok.injEq]
  constructor
  · rintro ⟨_, h, _, h', rfl⟩
    exact ⟨h, h', rfl⟩
  · rintro ⟨h, h', rfl⟩
    exact ⟨(), h, (), h', rfl⟩

end Sys2Proof.Machine
end

