-- ==== Sys2Proof/Laws/Decode.lean ====
section
/-! SUPPORT. Enumeration codes and identifier words: each decodes to what was encoded. -/

namespace Sys2Proof

@[simp] theorem FrameKind.ofCode_code (k : FrameKind) : FrameKind.ofCode k.code = k := by cases k <;> decide
@[simp] theorem RunMode.ofCode_code (m : RunMode) : RunMode.ofCode m.code = m := by cases m <;> decide
@[simp] theorem Quantity.ofCode_code (q : Quantity) : Quantity.ofCode q.code = q := by cases q <;> decide

@[simp] theorem FrameKind.code_ofCode (c : BitVec 2) : (FrameKind.ofCode c).code = c := by revert c; decide
@[simp] theorem RunMode.code_ofCode (c : BitVec 2) : (RunMode.ofCode c).code = c := by revert c; decide
@[simp] theorem Quantity.code_ofCode (c : BitVec 2) : (Quantity.ofCode c).code = c := by revert c; decide

/-- A number of two concatenated fields. -/
theorem toNat_append_eq {n m : Nat} (x : BitVec n) (y : BitVec m) : (x ++ y).toNat = x.toNat * 2 ^ m + y.toNat := by
  rw [BitVec.toNat_append, ← Nat.shiftLeft_add_eq_or_of_lt y.isLt, Nat.shiftLeft_eq]

theorem zero_toNat (n : Nat) : (0 : BitVec n).toNat = 0 := by simp

/-- A field of a number. -/
theorem toNat_field {n : Nat} (x : BitVec n) (start len : Nat) :
    (x.extractLsb' start len).toNat = x.toNat / 2 ^ start % 2 ^ len := by
  rw [BitVec.extractLsb'_toNat, Nat.shiftRight_eq_div_pow]

/-- The number of a reply identifier, and of a command identifier, in a 32-bit word (30_encoding.md R83, R84). -/
theorem replyWord_toNat (ctype : BitVec 5) (mid motor host : Byte) :
    (replyWord ctype mid motor host).toNat = ctype.toNat * 2 ^ 24 + mid.toNat * 2 ^ 16 + motor.toNat * 2 ^ 8 + host.toNat := by
  have h1 := toNat_append_eq ((0 : BitVec 3) ++ ctype ++ mid ++ motor) host
  have h2 := toNat_append_eq ((0 : BitVec 3) ++ ctype ++ mid) motor
  have h3 := toNat_append_eq ((0 : BitVec 3) ++ ctype) mid
  have h4 := toNat_append_eq (0 : BitVec 3) ctype
  rw [zero_toNat] at h4
  refine h1.trans ?_
  rw [h2, h3, h4]
  omega

theorem commandWord_eq (ctype : BitVec 5) (host motor : Byte) : commandWord ctype host motor = replyWord ctype 0 host motor := rfl

theorem replyWord_wide (ctype : BitVec 5) (mid motor host : Byte) : (replyWord ctype mid motor host).extractLsb' 29 3 = 0 := by
  have := ctype.isLt; have := mid.isLt; have := motor.isLt; have := host.isLt
  apply BitVec.eq_of_toNat_eq
  rw [toNat_field, replyWord_toNat, zero_toNat]
  omega

theorem replyWord_ctype (ctype : BitVec 5) (mid motor host : Byte) : (replyWord ctype mid motor host).extractLsb' 24 5 = ctype := by
  have := ctype.isLt; have := mid.isLt; have := motor.isLt; have := host.isLt
  apply BitVec.eq_of_toNat_eq
  rw [toNat_field, replyWord_toNat]
  omega

theorem replyWord_mid (ctype : BitVec 5) (mid motor host : Byte) : (replyWord ctype mid motor host).extractLsb' 16 8 = mid := by
  have := ctype.isLt; have := mid.isLt; have := motor.isLt; have := host.isLt
  apply BitVec.eq_of_toNat_eq
  rw [toNat_field, replyWord_toNat]
  omega

theorem replyWord_motor (ctype : BitVec 5) (mid motor host : Byte) : (replyWord ctype mid motor host).extractLsb' 8 8 = motor := by
  have := ctype.isLt; have := mid.isLt; have := motor.isLt; have := host.isLt
  apply BitVec.eq_of_toNat_eq
  rw [toNat_field, replyWord_toNat]
  omega

theorem replyWord_host (ctype : BitVec 5) (mid motor host : Byte) : (replyWord ctype mid motor host).extractLsb' 0 8 = host := by
  have := ctype.isLt; have := mid.isLt; have := motor.isLt; have := host.isLt
  apply BitVec.eq_of_toNat_eq
  rw [toNat_field, replyWord_toNat]
  omega

theorem replyWord_mode (ctype : BitVec 5) (mode : BitVec 2) (faults : BitVec 6) (motor host : Byte) :
    (replyWord ctype (mode ++ faults) motor host).extractLsb' 22 2 = mode := by
  have := ctype.isLt; have := motor.isLt; have := host.isLt; have := mode.isLt; have := faults.isLt
  have hm : (mode ++ faults : Byte).toNat = mode.toNat * 2 ^ 6 + faults.toNat := toNat_append_eq mode faults
  apply BitVec.eq_of_toNat_eq
  rw [toNat_field, replyWord_toNat, hm]
  omega

theorem replyWord_faults (ctype : BitVec 5) (mode : BitVec 2) (faults : BitVec 6) (motor host : Byte) :
    (replyWord ctype (mode ++ faults) motor host).extractLsb' 16 6 = faults := by
  have := ctype.isLt; have := motor.isLt; have := host.isLt; have := mode.isLt; have := faults.isLt
  have hm : (mode ++ faults : Byte).toNat = mode.toNat * 2 ^ 6 + faults.toNat := toNat_append_eq mode faults
  apply BitVec.eq_of_toNat_eq
  rw [toNat_field, replyWord_toNat, hm]
  omega

/-- Bytes of a half word and of a word, joined again. -/
theorem half_join (x : Half) : (x.extractLsb' 8 8 ++ x.extractLsb' 0 8 : Half) = x := by
  have := x.isLt
  apply BitVec.eq_of_toNat_eq
  refine (toNat_append_eq (x.extractLsb' 8 8) (x.extractLsb' 0 8)).trans ?_
  rw [toNat_field, toNat_field]
  omega

theorem word_join (x : Word) :
    (x.extractLsb' 24 8 ++ x.extractLsb' 16 8 ++ x.extractLsb' 8 8 ++ x.extractLsb' 0 8 : Word) = x := by
  have := x.isLt
  apply BitVec.eq_of_toNat_eq
  have h := toNat_append_eq (x.extractLsb' 24 8 ++ x.extractLsb' 16 8 ++ x.extractLsb' 8 8) (x.extractLsb' 0 8)
  have h' := toNat_append_eq (x.extractLsb' 24 8 ++ x.extractLsb' 16 8) (x.extractLsb' 8 8)
  have h'' := toNat_append_eq (x.extractLsb' 24 8) (x.extractLsb' 16 8)
  refine h.trans ?_
  rw [h', h'', toNat_field, toNat_field, toNat_field, toNat_field]
  omega

end Sys2Proof
end

