-- ==== Sys2Proof/Laws/Float.lean ====
section
/-! SUPPORT. The rounding function: how large a rounded magnitude can be, when it overflows, and which operations make a
NaN. -/

namespace Sys2Proof.Machine.F32

/-- The quotient that rounding keeps has at most 24 bits. -/
theorem quotient_lt (num den : Nat) : num / (den * 2 ^ ((num / den).log2 - 23)) < 2 ^ 24 := by
  rw [← Nat.div_div_eq_div_mul, Nat.div_lt_iff_lt_mul (by positivity), ← pow_add]
  have h : num / den < 2 ^ ((num / den).log2 + 1) := Nat.lt_log2_self
  exact h.trans_le (Nat.pow_le_pow_right (by norm_num) (by omega))

/-- A pattern that rounding makes is at most this much above its exponent's base. -/
theorem roundPattern_le (num den : Nat) :
    roundPattern num den ≤ ((num / den).log2 - 23) * 2 ^ 23 + 2 ^ 24 := by
  have := quotient_lt num den
  unfold roundPattern
  dsimp only
  split <;> omega

/-- Values below `2^250` units do not overflow. -/
theorem roundPattern_lt_inf {num den : Nat} (h : num < den * 2 ^ 250) : roundPattern num den < infPattern := by
  have h1 := roundPattern_le num den
  have h2 : (num / den).log2 < 250 := by
    by_cases h0 : num / den = 0
    · simp [h0]
    · exact (Nat.log2_lt h0).mpr (Nat.div_lt_of_lt_mul h)
  unfold infPattern
  omega

/-- The magnitude of a pattern is below the first power of two above its binade. -/
theorem magOfPattern_le {w k : Nat} (h : w ≤ (k + 1) * 2 ^ 23) : magOfPattern w ≤ 2 ^ (k + 23) := by
  unfold magOfPattern
  split
  next hw => exact hw.le.trans (Nat.pow_le_pow_right (by norm_num) (by omega))
  next hw =>
    by_cases hk : w = (k + 1) * 2 ^ 23
    · subst hk
      simp [pow_add, Nat.mul_comm]
    · have hq : w / 2 ^ 23 ≤ k := by omega
      have : (2 ^ 23 + w % 2 ^ 23) * 2 ^ (w / 2 ^ 23 - 1) ≤ 2 ^ 24 * 2 ^ (k - 1) :=
        Nat.mul_le_mul (by omega) (Nat.pow_le_pow_right (by norm_num) (by omega))
      refine this.trans ?_
      rw [← pow_add]
      exact Nat.pow_le_pow_right (by norm_num) (by omega)

/-- Rounding does not cross a power of two: below `2^k` units, the rounded magnitude is at most `2^k`. -/
theorem mag_round_le {num den k : Nat} (hk : 24 ≤ k) (h : num < den * 2 ^ k) :
    magOfPattern (roundPattern num den) ≤ 2 ^ k := by
  have h1 := roundPattern_le num den
  have h2 : (num / den).log2 < k := by
    by_cases h0 : num / den = 0
    · simp [h0]; omega
    · exact (Nat.log2_lt h0).mpr (Nat.div_lt_of_lt_mul h)
  have := magOfPattern_le (w := roundPattern num den) (k := k - 23) (by omega)
  rwa [show k - 23 + 23 = k by omega] at this

/-- Rounding gives a finite number or an infinity of the same sign, never a NaN. -/
theorem ofRat_cases (neg : Bool) (num den : Nat) :
    (∃ m, ofRat neg num den = .fin neg m) ∨ ofRat neg num den = .inf neg := by
  unfold ofRat
  split
  · exact .inl ⟨_, rfl⟩
  · exact .inr rfl

@[simp] theorem isNaN_fin (neg : Bool) (mag : Nat) : (F32.fin neg mag).isNaN = false := rfl
@[simp] theorem isNaN_inf (neg : Bool) : (F32.inf neg).isNaN = false := rfl

@[simp] theorem isNaN_ofRat (neg : Bool) (num den : Nat) : (ofRat neg num den).isNaN = false := by
  rcases ofRat_cases neg num den with ⟨m, h⟩ | h <;> rw [h] <;> rfl

/-- Every NaN that arithmetic makes is one (00_scope.md R10). -/
@[simp] theorem isNaN_nanResult (op : FloatOp) (a b : F32) : (nanResult op a b).isNaN = true := rfl

/-- A value well below the overflow threshold rounds to a finite number. -/
theorem ofRat_finite {num den k : Nat} (neg : Bool) (hk : 24 ≤ k) (hk' : k ≤ 250) (h : num < den * 2 ^ k) :
    ∃ m, ofRat neg num den = .fin neg m ∧ m ≤ 2 ^ k := by
  have hlt := roundPattern_lt_inf (h.trans_le (Nat.mul_le_mul_left _ (Nat.pow_le_pow_right (by norm_num) hk')))
  exact ⟨_, if_pos hlt, mag_round_le hk h⟩

theorem mul_fin (a b : Bool) (x y : Nat) : mul (.fin a x) (.fin b y) = ofRat (a ^^ b) (x * y) (2 ^ 149) := rfl

theorem div_fin (a b : Bool) (x : Nat) {y : Nat} (hy : y ≠ 0) : div (.fin a x) (.fin b y) = ofRat (a ^^ b) (x * 2 ^ 149) y :=
  if_neg hy

theorem isNaN_sum_fin (i : F32) (a b : Bool) (x y : Nat) : (sum i (.fin a x) (.fin b y)).isNaN = false := by
  simp only [sum]
  split_ifs <;> simp only [isNaN_ofRat, isNaN_fin]

theorem isNaN_sub_fin (a b : Bool) (x y : Nat) : (sub (.fin a x) (.fin b y)).isNaN = false := isNaN_sum_fin _ _ _ _ _

theorem isNaN_mul_fin {u : F32} (hu : u.isNaN = false) (b : Bool) {y : Nat} (hy : y ≠ 0) : (mul u (.fin b y)).isNaN = false := by
  cases u with
  | nan neg k => cases hu
  | inf a => exact (congrArg isNaN (if_neg hy)).trans (isNaN_inf _)
  | fin a x => rw [mul_fin, isNaN_ofRat]

theorem isNaN_div_fin {u : F32} (hu : u.isNaN = false) (b : Bool) {y : Nat} (hy : y ≠ 0) : (div u (.fin b y)).isNaN = false := by
  cases u with
  | nan neg k => cases hu
  | inf a => rfl
  | fin a x => rw [div_fin _ _ _ hy, isNaN_ofRat]

/-- A sum of finite numbers whose magnitudes are below `2^k` units stays finite. -/
theorem add_fin_finite {a b : Bool} {x y k : Nat} (hk : 24 ≤ k) (hk' : k ≤ 250) (h : x + y < 2 ^ k) :
    ∃ c m, add (.fin a x) (.fin b y) = .fin c m ∧ m ≤ 2 ^ k := by
  simp only [add, sum]
  split_ifs with h1 h2 h3
  · obtain ⟨m, e, hm⟩ := ofRat_finite a (num := x + y) (den := 1) hk hk' (by omega)
    exact ⟨a, m, e, hm⟩
  · exact ⟨false, 0, rfl, by positivity⟩
  · obtain ⟨m, e, hm⟩ := ofRat_finite a (num := x - y) (den := 1) hk hk' (by omega)
    exact ⟨a, m, e, hm⟩
  · obtain ⟨m, e, hm⟩ := ofRat_finite b (num := y - x) (den := 1) hk hk' (by omega)
    exact ⟨b, m, e, hm⟩

end Sys2Proof.Machine.F32

namespace Sys2Proof.Machine

/-- Rounding to an integer is defined on everything but a NaN. -/
theorem roundHalfAway_ok {t : F32} (h : t.isNaN = false) : ∃ r, roundHalfAway t = .ok r := by
  match t with
  | .nan _ _ => cases h
  | .inf true => exact ⟨_, rfl⟩
  | .inf false => exact ⟨_, rfl⟩
  | .fin true mag => exact ⟨_, rfl⟩
  | .fin false mag => exact ⟨_, rfl⟩

end Sys2Proof.Machine
end

