-- ==== Sys2Proof/Laws/Quantization.lean ====
section
/-! SUPPORT. The LUT functions never make a NaN and never overflow on decode, so neither Q.DEC nor Q.ENC faults. -/

namespace Sys2Proof.Machine

/-- The LUT's constants as unit counts. -/
theorem lutMin_fin (q : Quantity) : ∃ b y, F32.fromBits32 (lutMin q) = .fin b y ∧ y ≤ 2 ^ 154 := by
  cases q
  · exact ⟨true, 13176795 * 2 ^ 129, by decide, by decide⟩
  · exact ⟨true, 30 * 2 ^ 149, by decide, by decide⟩
  · exact ⟨true, 12 * 2 ^ 149, by decide, by decide⟩
  · exact ⟨false, 0, by decide, by decide⟩

theorem lutRange_fin (q : Quantity) : ∃ y, F32.fromBits32 (lutRange q) = .fin false y ∧ y ≠ 0 ∧ y < 2 ^ 162 := by
  cases q
  · exact ⟨13176795 * 2 ^ 130, by decide, by decide, by decide⟩
  · exact ⟨60 * 2 ^ 149, by decide, by decide, by decide⟩
  · exact ⟨24 * 2 ^ 149, by decide, by decide, by decide⟩
  · exact ⟨13107 * 2 ^ 148, by decide, by decide, by decide⟩

theorem toF32_65535 : F32.toF32 65535 = .fin false (65535 * 2 ^ 149) := by decide

theorem toF32_10 : F32.toF32 10 = .fin false (10 * 2 ^ 149) := by decide

theorem toF32_raw (raw : Half) : ∃ m, F32.toF32 raw.toNat = .fin false m ∧ m ≤ 2 ^ 165 := by
  have := raw.isLt
  exact F32.ofRat_finite false (by norm_num) (by norm_num) (by omega)

theorem qDecode_temp (raw : Half) : qDecode .temp raw = F32.div (F32.toF32 raw.toNat) (F32.toF32 10) := by
  simp only [qDecode]

theorem qDecode_linear {q : Quantity} (h : q ≠ .temp) (raw : Half) :
    qDecode q raw = F32.add (F32.div (F32.mul (F32.toF32 raw.toNat) (F32.fromBits32 (lutRange q))) (F32.toF32 65535))
      (F32.fromBits32 (lutMin q)) := by
  cases q <;> simp only [qDecode, ne_eq, not_true_eq_false] at *

/-- The linear map stays finite for every entry (44_quantization_lut.md R230). -/
theorem linear_finite (q : Quantity) (raw : Half) :
    ∃ b m, F32.add (F32.div (F32.mul (F32.toF32 raw.toNat) (F32.fromBits32 (lutRange q))) (F32.toF32 65535))
      (F32.fromBits32 (lutMin q)) = .fin b m := by
  obtain ⟨x, hx, hx'⟩ := toF32_raw raw
  obtain ⟨y, hy, -, hy'⟩ := lutRange_fin q
  obtain ⟨c, z, hz, hz'⟩ := lutMin_fin q
  have hxy : x * y < 2 ^ 149 * 2 ^ 178 := by
    calc x * y ≤ 2 ^ 165 * y := Nat.mul_le_mul_right _ hx'
      _ < 2 ^ 165 * 2 ^ 162 := Nat.mul_lt_mul_of_pos_left hy' (by positivity)
      _ = 2 ^ 149 * 2 ^ 178 := by norm_num
  obtain ⟨m, hm, hm'⟩ := F32.ofRat_finite (false ^^ false) (num := x * y) (den := 2 ^ 149) (by norm_num) (by norm_num) hxy
  obtain ⟨n, hn, hn'⟩ := F32.ofRat_finite ((false ^^ false) ^^ false) (num := m * 2 ^ 149) (den := 65535 * 2 ^ 149) (k := 178)
    (by norm_num) (by norm_num) (by omega)
  obtain ⟨b, o, ho, -⟩ := F32.add_fin_finite (a := (false ^^ false) ^^ false) (b := c) (x := n) (y := z) (k := 179) (by norm_num)
    (by norm_num) (by omega)
  refine ⟨b, o, ?_⟩
  rw [hx, hy, hz, toF32_65535, F32.mul_fin, hm, F32.div_fin _ _ _ (by norm_num), hn, ho]

/-- Every decoded quantity is a finite number. -/
theorem qDecode_finite (q : Quantity) (raw : Half) : ∃ b m, qDecode q raw = .fin b m := by
  cases q with
  | temp =>
    obtain ⟨x, hx, hx'⟩ := toF32_raw raw
    obtain ⟨m, hm, -⟩ := F32.ofRat_finite (false ^^ false) (num := x * 2 ^ 149) (den := 10 * 2 ^ 149) (k := 165)
      (by norm_num) (by norm_num) (by omega)
    refine ⟨false ^^ false, m, ?_⟩
    rw [qDecode_temp, hx, toF32_10, F32.div_fin _ _ _ (by norm_num), hm]
  | angle => rw [qDecode_linear (by decide)]; exact linear_finite .angle raw
  | speed => rw [qDecode_linear (by decide)]; exact linear_finite .speed raw
  | torque => rw [qDecode_linear (by decide)]; exact linear_finite .torque raw

/-- The scaled value of a finite number is never a NaN (44_quantization_lut.md R232). -/
theorem qScaled_isNaN (q : Quantity) {x : F32} (h : x.isFinite = true) : (qScaled q x).isNaN = false := by
  obtain ⟨b, z, hz, -⟩ := lutMin_fin q
  obtain ⟨y, hy, hy0, -⟩ := lutRange_fin q
  match x, h with
  | .fin a m, _ =>
    rw [qScaled, hz, hy, toF32_65535]
    exact F32.isNaN_div_fin (F32.isNaN_mul_fin (F32.isNaN_sub_fin _ _ _ _) _ (by norm_num)) _ hy0

theorem qEncode_completes (q : Quantity) (value : Word) : Op.completes (qEncode q value) := by
  refine Op.completes_bind (Op.completes_check _ _) fun _ h => ?_
  obtain ⟨r, hr⟩ := roundHalfAway_ok (qScaled_isNaN q (check_eq_ok.mp h))
  rw [hr]
  exact Op.completes_ok _

end Sys2Proof.Machine
end

