-- ==== Sys2Proof/Laws/ResponseDecoder.lean ====
section
/-! SUPPORT. The two reply decodes on a full payload, and the ends of DEC.RESPONSE. -/

namespace Sys2Proof.Machine

theorem halfBE_toNat (hi lo : Byte) : (halfBE hi lo).toNat = hi.toNat * 256 + lo.toNat := by
  have := hi.isLt
  have := lo.isLt
  simp only [halfBE, BitVec.toNat_or, BitVec.toNat_shiftLeft, BitVec.toNat_setWidth]
  rw [Nat.mod_eq_of_lt (a := hi.toNat) (by omega), Nat.mod_eq_of_lt (a := lo.toNat) (by omega),
    Nat.mod_eq_of_lt (by rw [Nat.shiftLeft_eq]; omega), ← Nat.shiftLeft_add_eq_or_of_lt (by omega), Nat.shiftLeft_eq]

theorem halfLE_toNat (b0 b1 : Byte) : (halfLE b0 b1).toNat = b0.toNat + 256 * b1.toNat := by
  have h : halfLE b0 b1 = halfBE b1 b0 := BitVec.or_comm _ _
  rw [h, halfBE_toNat]
  omega

/-- A status report on a full payload decodes, with no step that can fail (43_response_decoder.md R205). -/
theorem decodeFeedback_full (id : CanId) (p : Bytes8) :
    decodeFeedback id p.toList = .ok (.feedback (CanId.replyHost id) (CanId.replyMotor id) (CanId.replyFaults id) (CanId.replyMode id)
      (F32.bits32 (qDecode .angle (halfBE p.b0 p.b1))) (F32.bits32 (qDecode .speed (halfBE p.b2 p.b3)))
      (F32.bits32 (qDecode .torque (halfBE p.b4 p.b5))) (F32.bits32 (qDecode .temp (halfBE p.b6 p.b7)))) := by
  simp only [decodeFeedback, feedbackField, Bytes8.toList, readByte, List.getElem?_cons_zero, List.getElem?_cons_succ, ok_bind,
    pure_eq_ok]

/-- A parameter reply on a full payload decodes, with no step that can fail (43_response_decoder.md R207). -/
theorem decodeParam_full (id : CanId) (p : Bytes8) :
    decodeParam id p.toList =
      .ok (.param (CanId.replyHost id) (CanId.replyMotor id) (halfLE p.b0 p.b1) ⟨p.b4, p.b5, p.b6, p.b7⟩) := by
  simp only [decodeParam, Bytes8.toList, readByte, List.getElem?_cons_zero, List.getElem?_cons_succ, ok_bind, pure_eq_ok]

/-- A buffer of eight bytes is a full payload. -/
theorem exists_bytes8 {p : Buffer} (h : p.length = 8) : ∃ q : Bytes8, p = q.toList := by
  match p, h with
  | [a, b, c, d, e, f, g, i], _ => exact ⟨⟨a, b, c, d, e, f, g, i⟩, rfl⟩

/-- The four ends of the dispatch on the communication type (43_response_decoder.md R202). -/
theorem dispatchReply_cases (id : CanId) (p : Bytes8) :
    (CanId.ctype id = CT_STATUS ∧ dispatchReply id p.toList = decodeFeedback id p.toList) ∨
    (CanId.ctype id = CT_READ_PARAM ∧ dispatchReply id p.toList = decodeParam id p.toList) ∨
    (CanId.ctype id = CT_DEVICE_ID ∧ dispatchReply id p.toList = raise .notImplemented) ∨
    (CanId.ctype id ≠ CT_STATUS ∧ CanId.ctype id ≠ CT_READ_PARAM ∧ CanId.ctype id ≠ CT_DEVICE_ID ∧
      dispatchReply id p.toList = raise .unknownCommunicationType (CanId.ctype id)) := by
  unfold dispatchReply
  split_ifs with h1 h2 h3
  · exact .inl ⟨h1, rfl⟩
  · exact .inr (.inl ⟨h2, rfl⟩)
  · exact .inr (.inr (.inl ⟨h3, rfl⟩))
  · exact .inr (.inr (.inr ⟨h1, h2, h3, rfl⟩))

theorem dispatchReply_completes (id : CanId) (p : Bytes8) : Op.completes (dispatchReply id p.toList) := by
  rcases dispatchReply_cases id p with ⟨-, h⟩ | ⟨-, h⟩ | ⟨-, h⟩ | ⟨-, -, -, h⟩ <;> rw [h]
  · rw [decodeFeedback_full]; exact Op.completes_ok _
  · rw [decodeParam_full]; exact Op.completes_ok _
  · exact Op.completes_raise _ _
  · exact Op.completes_raise _ _

/-- A frame decoded from 26 bytes carries a full payload, so the DLC check cannot fail (43_response_decoder.md R200). -/
theorem full_of_length {input : Buffer} {f : DecodedFrame} (hn : input.length = RSP_LEN) (h : frameDec input = .ok f) :
    f.dlc = 8 ∧ ∃ p : Bytes8, f.payload = p.toList := by
  obtain ⟨-, -, hp, hlen⟩ := decodeMarked_limits (frameDec_eq_ok.mp h).2
  simp only [RSP_LEN] at hn
  simp only [FRAME_LEN, HDR_LEN] at hlen
  have h8 : f.dlc.toNat = 8 := by omega
  exact ⟨BitVec.eq_of_toNat_eq h8, exists_bytes8 (by omega)⟩

/-- DEC.RESPONSE on a buffer of another length. -/
theorem decResponse_length {input : Buffer} (h : input.length ≠ RSP_LEN) : decResponse input = raise .malformedFrame := by
  simp only [decResponse, check_neg h, raise_bind]

/-- DEC.RESPONSE on 26 bytes: FRAME.DEC's error, or the dispatch on the decoded identifier (43_response_decoder.md R200). -/
theorem decResponse_26 {input : Buffer} (h : input.length = RSP_LEN) :
    (∃ e, frameDec input = .error e ∧ decResponse input = .error e) ∨
    ∃ f, ∃ p : Bytes8, frameDec input = .ok f ∧ f.dlc = 8 ∧ f.payload = p.toList ∧ decResponse input = dispatchReply f.id p.toList := by
  cases hf : frameDec input with
  | error e => exact .inl ⟨e, rfl, by simp only [decResponse, check_pos h, ok_bind, hf, error_bind]⟩
  | ok f =>
    obtain ⟨h8, p, hp⟩ := full_of_length h hf
    exact .inr ⟨f, p, rfl, h8, hp, by simp only [decResponse, check_pos h, ok_bind, hf, check_pos h8, hp]⟩

theorem decResponse_completes (input : Buffer) : Op.completes (decResponse input) := by
  by_cases h : input.length = RSP_LEN
  · rcases decResponse_26 h with ⟨e, hf, he⟩ | ⟨f, p, -, -, -, he⟩
    · intro f' h'
      rw [he] at h'
      cases h'
      exact frameDec_completes input f' hf
    · rw [he]
      exact dispatchReply_completes _ _
  · rw [decResponse_length h]
    exact Op.completes_raise _ _

end Sys2Proof.Machine
end

