-- ==== Sys2Proof/Laws/Exec.lean ====
section
/-! SUPPORT. What an instruction, the block and the host can do to the state, said once. -/

namespace Sys2Proof.Machine

theorem frameResult_completes {op : Op DecodedFrame} (h : Op.completes op) : Op.completes (frameResult op) :=
  Op.completes_bind h fun _ _ => Op.completes_ok _

/-- Every instruction answers with a response that depends on the instruction alone, and writes nothing else. -/
theorem exec_answers (i : Instr) : ∃ r, ∀ s, exec i s = .next { s with rsp := some r } := by
  cases i with
  | frameEnc kind id plen payload => exact finish_completes (frameEnc_completes kind id plen payload)
  | frameDec input => exact finish_completes (frameResult_completes (frameDec_completes input))
  | idPack ctype host motor => exact finish_completes (idPack_completes ctype host motor)
  | idUnpack id => exact finish_completes (Op.completes_ok _)
  | qDec q raw => exact finish_completes (Op.completes_ok _)
  | qEnc q value => exact finish_completes (Op.completes_bind (qEncode_completes q value) fun _ _ => Op.completes_ok _)
  | encEnable host motor => exact finish_completes (command_completes _ _ _ _ _)
  | encDisable host motor => exact finish_completes (command_completes _ _ _ _ _)
  | encRunMode host motor mode => exact finish_completes (command_completes _ _ _ _ _)
  | encWriteFloat host motor index value => exact finish_completes (command_completes _ _ _ _ _)
  | decResponse input => exact finish_completes (decResponse_completes input)
  | markExtData rest => exact finish_completes (frameResult_completes (decodeByKind_completes (some .extData) (FrameKind.extData.markByte :: rest)))
  | markStdData rest => exact finish_completes (frameResult_completes (decodeByKind_completes (some .stdData) (FrameKind.stdData.markByte :: rest)))
  | markExtRemote rest => exact finish_completes (frameResult_completes (decodeByKind_completes (some .extRemote) (FrameKind.extRemote.markByte :: rest)))
  | markStdRemote rest => exact finish_completes (frameResult_completes (decodeByKind_completes (some .stdRemote) (FrameKind.stdRemote.markByte :: rest)))
  | ct3Enable host motor => exact finish_completes (command_completes _ _ _ _ _)
  | ct4Disable host motor => exact finish_completes (command_completes _ _ _ _ _)
  | ct18WriteParam host motor index value => exact finish_completes (command_completes _ _ _ _ _)
  | ct2StatusReport mode faults motor host payload =>
    exact ⟨_, fun s => congrArg (finish · s) (decodeFeedback_full _ payload)⟩
  | ct17ReadParam mid motor host payload => exact ⟨_, fun s => congrArg (finish · s) (decodeParam_full _ payload)⟩
  | ct0DeviceId low payload => exact finish_completes (dispatchReply_completes _ _)

/-- The block answers whatever stands at its input, decoded or not. -/
theorem perform_answers (p : Presented) : ∃ r, ∀ s, perform p s = .next { s with rsp := some r } := by
  unfold perform
  cases decode p with
  | ok i => exact exec_answers i
  | error e =>
    cases e with
    | illegalOperation op => exact ⟨.err .illegalOperation 0, fun _ => rfl⟩
    | emptyLine => exact ⟨.err .malformedFrame 0, fun _ => rfl⟩
    | noFrameKind m => exact ⟨.err .malformedFrame 0, fun _ => rfl⟩
    | identifierTooWide w => exact ⟨.err .malformedFrame 0, fun _ => rfl⟩
    | noCommunicationType ct => exact ⟨.err .unknownCommunicationType ct, fun _ => rfl⟩

theorem turn_reset {s : State} {rest : List HostMove} (h : s.host = .reset :: rest) : turn s = .host .reset rest := by
  simp only [turn, h]

theorem turn_block {s : State} {p : Presented} (hp : s.port = some p) (h : s.host.head? ≠ some .reset) : turn s = .block p := by
  unfold turn
  split <;> simp_all

theorem turn_host {s : State} {m : HostMove} {rest : List HostMove} (hp : s.port = none) (h : s.host = m :: rest) :
    turn s = .host m rest := by
  cases m <;> simp only [turn, h, hp]

theorem turn_idle {s : State} (hp : s.port = none) (h : s.host = []) : turn s = .idle := by
  simp only [turn, h, hp]

/-- All that a step can do: a reset, the block's answer, a request presented, a response taken (or the fault of taking none),
or nothing. -/
theorem step_cases (s : State) :
    (∃ rest, s.host = .reset :: rest ∧ step s = .next { s with rsp := none, port := none, host := rest }) ∨
    (∃ p r, s.port = some p ∧ s.host.head? ≠ some .reset ∧ step s = .next { s with port := none, rsp := some r }) ∨
    (∃ q rest, s.port = none ∧ s.host = .present q :: rest ∧
      step s = .next { s with port := some (.request q), host := rest }) ∨
    (∃ r rest, s.port = none ∧ s.host = .takeResponse :: rest ∧ s.rsp = some r ∧
      step s = .next { s with host := rest, observed := s.observed ++ [r] }) ∨
    (∃ rest, s.port = none ∧ s.host = .takeResponse :: rest ∧ s.rsp = none ∧ step s = .fault .rspEmpty) ∨
    (s.port = none ∧ s.host = [] ∧ step s = .next s) := by
  by_cases hr : s.host.head? = some .reset
  · obtain ⟨rest, h⟩ : ∃ rest, s.host = .reset :: rest := List.head?_eq_some_iff.mp hr
    refine .inl ⟨rest, h, ?_⟩
    simp only [step, agentStep, turn_reset h, hostMove]
    rfl
  · cases hp : s.port with
    | some p =>
      obtain ⟨r, h⟩ := perform_answers p
      refine .inr (.inl ⟨p, r, rfl, hr, ?_⟩)
      simp only [step, agentStep, turn_block hp hr, h]
    | none =>
      cases hh : s.host with
      | nil => exact .inr (.inr (.inr (.inr (.inr ⟨rfl, rfl, by simp only [step, agentStep, turn_idle hp hh]⟩))))
      | cons m rest =>
        cases m with
        | present q =>
          refine .inr (.inr (.inl ⟨q, rest, rfl, rfl, ?_⟩))
          simp only [step, agentStep, turn_host hp hh, hostMove]
        | takeResponse =>
          cases ha : s.rsp with
          | some r =>
            refine .inr (.inr (.inr (.inl ⟨r, rest, rfl, rfl, rfl, ?_⟩)))
            simp only [step, agentStep, turn_host hp hh, hostMove, takeResponse, ha, hp]
          | none =>
            refine .inr (.inr (.inr (.inr (.inl ⟨rest, rfl, rfl, rfl, ?_⟩))))
            simp only [step, agentStep, turn_host hp hh, hostMove, takeResponse, ha]
        | reset => rw [hh] at hr; exact absurd rfl hr

/-- The word that the host's interface places at the input is the one the next step runs. -/
theorem step_withFetchWord (s : State) (nbits w : Nat) :
    step (s.withFetchWord nbits w) =
      perform (tableWord nbits w) { s with port := none, host := withoutPendingReset s.host } := by
  have hp : (s.withFetchWord nbits w).port = some (tableWord nbits w) := rfl
  simp only [step, agentStep, turn_block hp (head_withoutPendingReset s.host)]
  rfl

/-! Runs, one step at a time. -/

theorem run_next {c : Host.Core} {s t : c.State} (h : c.step s = .next t) (n : Nat) : c.run (n + 1) s = c.run n t := by
  simp only [Host.Core.run, h]

theorem run_fault {c : Host.Core} {s : c.State} {f : c.Fault} (h : c.step s = .fault f) (n : Nat) :
    c.run (n + 1) s = .fault f := by
  simp only [Host.Core.run, h]

theorem core_run_next {s t : State} (h : step s = .next t) (n : Nat) :
    Host.Core.run Sys2Proof.core (n + 1) s = Host.Core.run Sys2Proof.core n t := run_next h n

theorem core_run_fault {s : State} {f : Fault} (h : step s = .fault f) (n : Nat) :
    Host.Core.run Sys2Proof.core (n + 1) s = .fault f := run_fault (c := Sys2Proof.core) h n

end Sys2Proof.Machine
end

