-- ==== Sys2Proof/Laws/PerInstr.lean ====
section
/-! SUPPORT. The family RoundTrip: for each instruction, decoding its encoding gives it back. -/

namespace Sys2Proof.Laws.RoundTrip

/-- Decoding the encoding of an instruction gives it back. -/
def Statement (i : Instr) : Prop := decode (encode i) = .ok i

theorem frameEnc (kind : FrameKind) (id : Word) (plen : BitVec 4) (payload : Bytes8) :
    Statement (.frameEnc kind id plen payload) := by
  simp [Statement, encode, decode, decodeRequest, Request.blank]

theorem frameDec (input : Buffer) : Statement (.frameDec input) := rfl

theorem idPack (ctype : BitVec 5) (host motor : Byte) : Statement (.idPack ctype host motor) := rfl

theorem idUnpack (id : CanId) : Statement (.idUnpack id) := rfl

theorem qDec (q : Quantity) (raw : Half) : Statement (.qDec q raw) := by
  simp [Statement, encode, decode, decodeRequest, Request.blank]

theorem qEnc (q : Quantity) (value : Word) : Statement (.qEnc q value) := by
  simp [Statement, encode, decode, decodeRequest, Request.blank]

theorem encEnable (host motor : Byte) : Statement (.encEnable host motor) := rfl

theorem encDisable (host motor : Byte) : Statement (.encDisable host motor) := rfl

theorem encRunMode (host motor : Byte) (mode : RunMode) : Statement (.encRunMode host motor mode) := by
  simp [Statement, encode, decode, decodeRequest, Request.blank]

theorem encWriteFloat (host motor : Byte) (index : Half) (value : Word) : Statement (.encWriteFloat host motor index value) := rfl

theorem decResponse (input : Buffer) : Statement (.decResponse input) := rfl

theorem markExtData (rest : Buffer) : Statement (.markExtData rest) := rfl

theorem markStdData (rest : Buffer) : Statement (.markStdData rest) := rfl

theorem markExtRemote (rest : Buffer) : Statement (.markExtRemote rest) := rfl

theorem markStdRemote (rest : Buffer) : Statement (.markStdRemote rest) := rfl

theorem ct3Enable (host motor : Byte) : Statement (.ct3Enable host motor) := by
  simp [Statement, encode, decode, decodeCanFrame, commandWord_eq, replyWord_wide, replyWord_ctype, replyWord_mid,
    replyWord_motor, replyWord_host]

theorem ct4Disable (host motor : Byte) : Statement (.ct4Disable host motor) := by
  simp [Statement, encode, decode, decodeCanFrame, commandWord_eq, replyWord_wide, replyWord_ctype, replyWord_mid,
    replyWord_motor, replyWord_host]

theorem ct18WriteParam (host motor : Byte) (index : Half) (value : Word) : Statement (.ct18WriteParam host motor index value) := by
  have hi := half_join index
  have hv := word_join value
  simp [Statement, encode, decode, decodeCanFrame, commandWord_eq, replyWord_wide, replyWord_ctype, replyWord_mid,
    replyWord_motor, replyWord_host]
  exact ⟨hi, hv⟩

theorem ct2StatusReport (mode : BitVec 2) (faults : BitVec 6) (motor host : Byte) (payload : Bytes8) :
    Statement (.ct2StatusReport mode faults motor host payload) := by
  simp [Statement, encode, decode, decodeCanFrame, replyWord_wide, replyWord_ctype, replyWord_motor, replyWord_host,
    replyWord_mode, replyWord_faults]

theorem ct17ReadParam (mid motor host : Byte) (payload : Bytes8) : Statement (.ct17ReadParam mid motor host payload) := by
  simp [Statement, encode, decode, decodeCanFrame, replyWord_wide, replyWord_ctype, replyWord_mid, replyWord_motor,
    replyWord_host]

theorem ct0DeviceId (low : BitVec 24) (payload : Bytes8) : Statement (.ct0DeviceId low payload) := by
  have hl := low.isLt
  have hw : ((0 : BitVec 8) ++ low : Word).toNat = low.toNat := by
    refine (toNat_append_eq (0 : BitVec 8) low).trans ?_
    simp
  have h1 : BitVec.extractLsb' 29 3 ((0 : BitVec 8) ++ low : Word) = 0 := by
    apply BitVec.eq_of_toNat_eq; rw [toNat_field, hw, zero_toNat]; omega
  have h2 : BitVec.extractLsb' 24 5 ((0 : BitVec 8) ++ low : Word) = 0 := by
    apply BitVec.eq_of_toNat_eq; rw [toNat_field, hw, zero_toNat]; omega
  have h3 : BitVec.extractLsb' 0 24 ((0 : BitVec 8) ++ low : Word) = low := by
    apply BitVec.eq_of_toNat_eq; rw [toNat_field, hw]; omega
  simp only [Statement, encode, decode, decodeCanFrame]
  rw [h1, h2, h3]
  rfl

end Sys2Proof.Laws.RoundTrip
end

