-- ==== Sys2Proof/Tests/Slice0.lean ====
section
/-! SUPPORT. The model's own tests. Expected results come from the spec's worked vectors (95_test_vectors.md; V… and T…
below are its names) and from words written out from the encoding tables. The last section shows, for every statement with
hypotheses, values that meet them together. -/

set_option Elab.async false

namespace Sys2Proof.Tests

open Sys2Proof Sys2Proof.Machine

/-! Helpers. -/

/-- A double-quoted buffer of the spec: its ASCII bytes. -/
def ascii (s : String) : Buffer := s.toList.map fun c => BitVec.ofNat 8 c.toNat

/-- The response to a record presented straight after reset. -/
def answer (p : Presented) : Option Response :=
  match step { State.reset with port := some p } with
  | .next t => t.rsp
  | _ => none

/-- The response to a request written in the syntax of 30_encoding.md R104. -/
def reply (text : String) : Option Response := (assembleRecord text).bind answer

/-- The response to a request with this operation select code and every operand zero. -/
def bare (opsel : Byte) : Option Response := answer (.request (Request.blank opsel))

def bytes (s : String) : Option Response := some (.ok (.bytes (ascii s)))

def failed (k : ErrKind) : Option Response := some (.err k 0)

def u16 (n : Half) : Option Response := some (.ok (.u16 n))

def f32 (w : Word) : Option Response := some (.ok (.f32 w))

/-! Well-formedness: the one check, and a term it refuses for each shape that carries a buffer (10_state.md R34). -/

theorem test_wf_refuses_long_frameDec : Instr.wf (.frameDec (List.replicate (Config.IN_CAP + 1) 0)) = false := by
  simp [Instr.wf, Instr.inputLength]

theorem test_wf_refuses_long_decResponse : Instr.wf (.decResponse (List.replicate (Config.IN_CAP + 1) 0)) = false := by
  simp [Instr.wf, Instr.inputLength]

theorem test_wf_refuses_long_markT : Instr.wf (.markExtData (List.replicate Config.IN_CAP 0)) = false := by
  simp [Instr.wf, Instr.inputLength]

theorem test_wf_refuses_long_markt : Instr.wf (.markStdData (List.replicate Config.IN_CAP 0)) = false := by
  simp [Instr.wf, Instr.inputLength]

theorem test_wf_refuses_long_markR : Instr.wf (.markExtRemote (List.replicate Config.IN_CAP 0)) = false := by
  simp [Instr.wf, Instr.inputLength]

theorem test_wf_refuses_long_markr : Instr.wf (.markStdRemote (List.replicate Config.IN_CAP 0)) = false := by
  simp [Instr.wf, Instr.inputLength]

theorem test_wf_accepts_full_buffer : Instr.wf (.decResponse (List.replicate Config.IN_CAP 0)) = true := by
  simp [Instr.wf, Instr.inputLength]

theorem test_presented_wf_refuses_long_request :
    Presented.wf (.request { Request.blank 0x02 with input := List.replicate (Config.IN_CAP + 1) 0 }) = false := by
  simp [Presented.wf]

theorem test_presented_wf_refuses_long_line : Presented.wf (.line (List.replicate (Config.IN_CAP + 1) 0x54)) = false := by
  simp [Presented.wf]

/-- A reply of 26 bytes can always be presented: `IN_CAP ≥ 26` (00_scope.md R6). -/
theorem test_wf_accepts_every_reply (input : Buffer) (h : input.length = 26) : Instr.wf (.decResponse input) = true := by
  simp only [Instr.wf, Instr.inputLength, Config.IN_CAP]
  exact decide_eq_true (by omega)

/-! Decoding: every constructor from a word written out from its table. Operation select codes (30_encoding.md R100). -/

theorem test_decode_opsel_01_02_03 :
    (decode (.request { Request.blank 0x01 with kind := 2, id := 0x20000000, plen := 9 }) =
      .ok (.frameEnc .extRemote 0x20000000 9 Bytes8.zero)) ∧
    decode (.request { Request.blank 0x02 with input := [0x54, 0x30] }) = .ok (.frameDec [0x54, 0x30]) ∧
    decode (.request { Request.blank 0x03 with ctype := 22, host := 0x64, motor := 0x7F }) = .ok (.idPack 22 0x64 0x7F) :=
  ⟨rfl, rfl, rfl⟩

theorem test_decode_opsel_04_05_06 :
    decode (.request { Request.blank 0x04 with canId := 0x0300647F }) = .ok (.idUnpack 0x0300647F) ∧
    decode (.request { Request.blank 0x05 with q := 1, raw := 0x8000 }) = .ok (.qDec .speed 0x8000) ∧
    decode (.request { Request.blank 0x06 with q := 3, value := 0x3E800000 }) = .ok (.qEnc .temp 0x3E800000) := ⟨rfl, rfl, rfl⟩

theorem test_decode_opsel_10_11_12 :
    decode (.request { Request.blank 0x10 with host := 0x64, motor := 0x7F }) = .ok (.encEnable 0x64 0x7F) ∧
    decode (.request { Request.blank 0x11 with host := 0x64, motor := 0x7F }) = .ok (.encDisable 0x64 0x7F) ∧
    decode (.request { Request.blank 0x12 with host := 0, motor := 0x7F, mode := 2 }) = .ok (.encRunMode 0 0x7F .speed) :=
  ⟨rfl, rfl, rfl⟩

theorem test_decode_opsel_13_20 :
    decode (.request { Request.blank 0x13 with motor := 0x7F, index := 0x700A, value := 0x3F8F5C29 }) =
      .ok (.encWriteFloat 0 0x7F 0x700A 0x3F8F5C29) ∧
    decode (.request { Request.blank 0x20 with input := [0x0D] }) = .ok (.decResponse [0x0D]) := ⟨rfl, rfl⟩

/-- Marker bytes (40_slcan_frame_codec.md R131): 'T', 't', 'R', 'r' from the ASCII table, and an empty line and a carriage
return, which are no frame kind. -/
theorem test_decode_markers :
    decode (.line [0b01010100, 0x30]) = .ok (.markExtData [0x30]) ∧ decode (.line [0b01110100]) = .ok (.markStdData []) ∧
    decode (.line [0b01010010]) = .ok (.markExtRemote []) ∧ decode (.line [0b01110010]) = .ok (.markStdRemote []) ∧
    decode (.line []) = .error .emptyLine ∧ decode (.line [0x0D]) = .error (.noFrameKind 0x0D) := ⟨rfl, rfl, rfl, rfl, rfl, rfl⟩

/-- Command identifiers bit by bit (30_encoding.md R83): three unused bits, type, zeros, host, motor; the payload of R85. -/
theorem test_decode_command_identifiers :
    decode (.canFrame 0b000_00011_00000000_01100100_01111111 Bytes8.zero) = .ok (.ct3Enable 0x64 0x7F) ∧
    decode (.canFrame 0b000_00100_00000000_01100100_01111111 Bytes8.zero) = .ok (.ct4Disable 0x64 0x7F) ∧
    decode (.canFrame 0b000_10010_00000000_00000000_01111111 ⟨0x0A, 0x70, 0, 0, 0x29, 0x5C, 0x8F, 0x3F⟩) =
      .ok (.ct18WriteParam 0 0x7F 0x700A 0x3F8F5C29) := ⟨rfl, rfl, rfl⟩

/-- Reply identifiers bit by bit (30_encoding.md R84): type, mode, faults, motor, host. -/
theorem test_decode_reply_identifiers :
    decode (.canFrame 0b000_00010_10_000100_01111111_00000000 Bytes8.zero) =
      .ok (.ct2StatusReport 0b10 0b000100 0x7F 0 Bytes8.zero) ∧
    decode (.canFrame 0b000_10001_10101011_01111111_00000001 Bytes8.zero) = .ok (.ct17ReadParam 0xAB 0x7F 1 Bytes8.zero) ∧
    decode (.canFrame 0b000_00000_00000000_01111111_00000000 Bytes8.zero) = .ok (.ct0DeviceId 0x007F00 Bytes8.zero) := ⟨rfl, rfl, rfl⟩

/-- Reserved zeros, types with no row and identifiers above 29 bits are refused by name (30_encoding.md R83, R103). -/
theorem test_decode_refuses_by_name :
    decode (.canFrame 0x03010000 Bytes8.zero) = .error (.noCommunicationType 3) ∧
    decode (.canFrame 0x12000000 ⟨0, 0, 1, 0, 0, 0, 0, 0⟩) = .error (.noCommunicationType 18) ∧
    decode (.canFrame 0x01000000 Bytes8.zero) = .error (.noCommunicationType 1) ∧
    decode (.canFrame 0x20000000 Bytes8.zero) = .error (.identifierTooWide 0x20000000) ∧
    decode (.request (Request.blank 0x07)) = .error (.illegalOperation 0x07) := ⟨rfl, rfl, rfl, rfl, rfl⟩

theorem test_tableWords_cover_both_widths :
    decodeTableWord 8 0x74 = some (.markStdData []) ∧ decodeTableWord 8 0x07 = none ∧
    decodeTableWord 32 0x04000000 = some (.ct4Disable 0 0) ∧ decodeTableWord 32 0x0000FFFF = some (.ct0DeviceId 0xFFFF Bytes8.zero) :=
  ⟨rfl, rfl, rfl, rfl⟩

/-! The assembler syntax (30_encoding.md R104, R105). -/

theorem test_assemble_write_float : assemble "ENC.WRITE_FLOAT 0x00, 0x7F, 0x700A, 1.12" = some (.encWriteFloat 0 127 0x700A 0x3F8F5C29) := by
  decide

theorem test_assemble_special_values :
    assemble "Q.ENC SPEED, NaN" = some (.qEnc .speed 0x7FC00000) ∧ assemble "Q.ENC ANGLE, -Inf" = some (.qEnc .angle 0xFF800000) ∧
    assemble "Q.ENC SPEED, -1e30" = some (.qEnc .speed 0xF149F2CA) := by decide

theorem test_assemble_buffers :
    assemble "FRAME.DEC \"T0\\r\\x41\"" = some (.frameDec [0x54, 0x30, 0x0D, 0x41]) ∧
    assemble "ID.PACK 3, 256, 0" = none := by decide

theorem test_assemble_pseudo_operations :
    assemble "ENC.SPEED_REF 0x00, 0x7F, 1.12" = assemble "ENC.WRITE_FLOAT 0x00, 0x7F, 0x700A, 1.12" ∧
    assemble "ENC.SPEED_MODE 0x00, 0x7F" = assemble "ENC.RUN_MODE 0x00, 0x7F, 2" := by decide

/-! One request each, straight after reset. -/

/-- T5 (30_encoding.md R80 format in full). -/
theorem test_frameEnc_full_payload :
    reply "FRAME.ENC EXT_DATA, 0x0000000A, [0x00, 1, 2, 3, 4, 5, 6, 7]" = bytes "T0000000A80001020304050607" := by decide

/-- T10: the kind is checked first. -/
theorem test_frameEnc_kind_checked_first :
    answer (.request { Request.blank 0x01 with kind := 2, id := 0x20000000, plen := 9 }) = failed .unsupportedFrameKind := by decide

/-- T31. -/
theorem test_frameDec_lower_case :
    reply "FRAME.DEC \"T0300647F1aB\"" = some (.ok (.frame .extData 0x0300647F 1 [0xAB])) := by decide

/-- T24, T32, T33: identifier width, payload digit, length. -/
theorem test_frameDec_errors :
    reply "FRAME.DEC \"T2000000000\"" = failed .malformedFrame ∧ reply "FRAME.DEC \"T0300647F1GZ\"" = failed .invalidHexDigit ∧
    reply "FRAME.DEC \"T0300647F1ABC\"" = failed .malformedFrame := by decide

/-- T40. -/
theorem test_idPack : reply "ID.PACK 18, 0x00, 0x7F" = some (.ok (.id 0x1200007F)) := by decide

/-- T42, T46: the id check comes before the type check. -/
theorem test_idPack_errors :
    reply "ID.PACK 22, 0, 0" = failed .contractViolation ∧ reply "ID.PACK 22, 128, 0" = failed .idOutOfRange := by decide

/-- T52. -/
theorem test_idUnpack : reply "ID.UNPACK 0x12AB3456" = some (.ok (.idFields 0x12 0xAB 0x34 0x56)) := by decide

/-- The Q.DEC table's row 0x1234, ANGLE and TORQUE. -/
theorem test_qDec_rounds_three_times :
    reply "Q.DEC ANGLE, 0x1234" = f32 0xC12C77D5 ∧ reply "Q.DEC TORQUE, 0x1234" = f32 0xC124B1E5 := by decide

/-- The Q.DEC table: TEMP 1 and SPEED 0x7FFF. -/
theorem test_qDec_temperature_and_midpoint :
    reply "Q.DEC TEMP, 1" = f32 0x3DCCCCCD ∧ reply "Q.DEC SPEED, 0x7FFF" = f32 0xB9F00000 := by decide

/-- T110 (halves away from zero), T99 (overflow), T98 (below range). -/
theorem test_qEnc_ties_and_clamp :
    reply "Q.ENC TEMP, 0.25" = u16 3 ∧ reply "Q.ENC SPEED, 3.4e38" = u16 65535 ∧ reply "Q.ENC SPEED, -1e30" = u16 0 := by decide

/-- T101 (a subnormal), T116. -/
theorem test_qEnc_subnormal_and_infinity :
    reply "Q.ENC SPEED, bits:0x00000001" = u16 32768 ∧ reply "Q.ENC SPEED, +Inf" = failed .invalidNumericValue := by decide

/-- V1 and R173's corner case. -/
theorem test_encEnable :
    reply "ENC.ENABLE 0x64, 0x7F" = bytes "T0300647F0" ∧ reply "ENC.ENABLE 128, 0" = failed .idOutOfRange := by decide

/-- V2, T58. -/
theorem test_encDisable :
    reply "ENC.DISABLE 0x64, 0x7F" = bytes "T0400647F0" ∧ reply "ENC.DISABLE 0, 128" = failed .idOutOfRange := by decide

/-- V3, T63. -/
theorem test_encRunMode :
    reply "ENC.RUN_MODE 0x00, 0x7F, SPEED" = bytes "T1200007F80570000002000000" ∧
    reply "ENC.RUN_MODE 0, 0x7F, CURRENT" = bytes "T1200007F80570000003000000" := by decide

/-- V4, T68: a NaN is sent unchanged. -/
theorem test_encWriteFloat :
    reply "ENC.WRITE_FLOAT 0x00, 0x7F, 0x700A, 1.12" = bytes "T1200007F80A700000295C8F3F" ∧
    reply "ENC.WRITE_FLOAT 0x00, 0x7F, 0x700A, NaN" = bytes "T1200007F80A7000000000C07F" := by decide

/-- T76. -/
theorem test_decResponse_feedback :
    reply "DEC.RESPONSE \"T02847F008FFFF00007FFF0190\"" =
      some (.ok (.feedback 0x00 0x7F 0x04 2 0x41490FDB 0xC1F00000 0xB9400000 0x42200000)) := by decide

/-- T82, T85, T83, T91. -/
theorem test_decResponse_dispatch :
    reply "DEC.RESPONSE \"T11AB7F0080570123402000000\"" = some (.ok (.param 0x00 0x7F 0x7005 ⟨2, 0, 0, 0⟩)) ∧
    reply "DEC.RESPONSE \"T12007F0080A700000295C8F3F\"" = some (.err .unknownCommunicationType 18) ∧
    reply "DEC.RESPONSE \"T00007F0080000000000000000\"" = failed .notImplemented ∧
    reply "DEC.RESPONSE \"T0300647F0\"" = failed .malformedFrame := by decide

/-- T20 and T12, reached through the marker row. -/
theorem test_markT :
    answer (.line (ascii "T0300647F0")) = some (.ok (.frame .extData 0x0300647F 0 [])) ∧
    answer (.line (ascii "T")) = failed .malformedFrame := by decide

/-- T13, T18. -/
theorem test_markt :
    answer (.line (ascii "t")) = failed .unsupportedFrameKind ∧ answer (.line (ascii "t1230")) = failed .unsupportedFrameKind := by decide

/-- T14. -/
theorem test_markR : answer (.line (ascii "R")) = failed .unsupportedFrameKind := by decide

/-- T15. -/
theorem test_markr : answer (.line (ascii "r")) = failed .unsupportedFrameKind := by decide

/-- V1's identifier 0x0300647F (30_encoding.md R83). -/
theorem test_ct3 : answer (.canFrame 0x0300647F Bytes8.zero) = bytes "T0300647F0" := by decide

/-- V2's identifier. -/
theorem test_ct4 : answer (.canFrame 0x0400647F Bytes8.zero) = bytes "T0400647F0" := by decide

/-- V4's identifier and payload. -/
theorem test_ct18 :
    answer (.canFrame 0x1200007F ⟨0x0A, 0x70, 0, 0, 0x29, 0x5C, 0x8F, 0x3F⟩) = bytes "T1200007F80A700000295C8F3F" := by decide

/-- T78: undervoltage, reserved mode 3 reported as it is. -/
theorem test_ct2 :
    answer (.canFrame 0x02C17F00 ⟨0x80, 0x00, 0x80, 0x00, 0x80, 0x00, 0xFF, 0xFF⟩) =
      some (.ok (.feedback 0x00 0x7F 0x01 3 0x39490000 0x39F00000 0x39400000 0x45CCCC00)) := by decide

/-- T80, T81: reply roles of the two ids. -/
theorem test_ct17 :
    answer (.canFrame 0x11007F00 ⟨0x0A, 0x70, 0, 0, 0x29, 0x5C, 0x8F, 0x3F⟩) =
      some (.ok (.param 0x00 0x7F 0x700A ⟨0x29, 0x5C, 0x8F, 0x3F⟩)) ∧
    answer (.canFrame 0x1100007F ⟨0x0A, 0x70, 0, 0, 0x29, 0x5C, 0x8F, 0x3F⟩) =
      some (.ok (.param 0x7F 0x00 0x700A ⟨0x29, 0x5C, 0x8F, 0x3F⟩)) := by decide

/-- T83's frame. -/
theorem test_ct0 : answer (.canFrame 0x00007F00 Bytes8.zero) = failed .notImplemented := by decide

/-- T120 to T123. -/
theorem test_undefined_opsels :
    bare 0x00 = failed .illegalOperation ∧ bare 0x07 = failed .illegalOperation ∧ bare 0x14 = failed .illegalOperation ∧
    bare 0xFF = failed .illegalOperation := by decide

/-- T124. -/
theorem test_read_after_reset_faults : step { State.reset with host := [.takeResponse] } = .fault .rspEmpty := rfl

/-- 10_state.md R40: the bits of `f32(-4π)` and `f32(8π)` decode to values with these exact units of `2^-149`:
`-0x490FDB·2^-20` has significand 13176795 and `8π` the same one binade up. -/
theorem test_lut_angle_patterns :
    F32.fromBits32 (lutMin .angle) = .fin true (13176795 * 2 ^ 129) ∧
    F32.fromBits32 (lutRange .angle) = .fin false (13176795 * 2 ^ 130) := by decide

/-! Witnesses: for every statement with hypotheses, values that meet all of them together. -/

/-- A state with a record at the block's input, an earlier response in `RSP`, and a host with a move to come. -/
def busy (p : Presented) : State :=
  { rsp := some (.ok (.u16 7)), port := some p, host := [.takeResponse], observed := [.err .malformedFrame 0] }

/-- Eight bytes that all differ. -/
def eight : Bytes8 := ⟨0x01, 0x23, 0x45, 0x67, 0x89, 0xAB, 0xCD, 0xEF⟩

theorem witness_WireWordsHaveOneEncoding :
    decode (.line [0x54, 0x30]) = .ok (.markExtData [0x30]) ∧
    (decode (.canFrame 0x12007F7F ⟨1, 2, 0, 0, 3, 4, 5, 6⟩) = .ok (.ct18WriteParam 0x7F 0x7F 0x0201 0x06050403) ∧
      (0x12007F7F : Word).toNat / 2 ^ 24 ≠ 3 ∧ (0x12007F7F : Word).toNat / 2 ^ 24 ≠ 4) := ⟨rfl, rfl, by decide, by decide⟩

theorem witness_UndefinedOpselIsIllegalOperation :
    ∀ c ∈ [(0x00 : Byte), 0x07, 0x14, 0x21, 0xFF],
      (busy (.request (Request.blank c))).port = some (.request (Request.blank c)) ∧
      (busy (.request (Request.blank c))).host.head? ≠ some .reset ∧
      (Request.blank c).opsel.toNat ∉ [0x01, 0x02, 0x03, 0x04, 0x05, 0x06, 0x10, 0x11, 0x12, 0x13, 0x20] := by decide

/-- A request for each clause whose hypotheses fix a code: the last code of each table, with other fields not zero. -/
theorem witness_SpecWordsDecodeToTheirRows :
    (let r : Request := { Request.blank 0 with kind := 3, q := 3, mode := 3, id := 0xFFFFFFFF, plen := 15, payload := eight, raw := 1 }
     decode (.request { r with opsel := 0x01 }) = .ok (.frameEnc .stdRemote 0xFFFFFFFF 15 eight) ∧
     decode (.request { r with opsel := 0x05 }) = .ok (.qDec .temp 1) ∧
     decode (.request { r with opsel := 0x06 }) = .ok (.qEnc .temp 0) ∧
     decode (.request { r with opsel := 0x12 }) = .ok (.encRunMode 0 0 .current)) := ⟨rfl, rfl, rfl, rfl⟩

/-- One identifier for each clause, at the ends of its fields' ranges: type 18 with either payload byte broken, types 1 and 31,
and the least and the largest identifier above 29 bits. -/
theorem witness_IdentifierSelectsItsRow :
    decode (.canFrame (BitVec.ofNat 32 (3 * 2 ^ 24 + 0 * 2 ^ 16 + 255 * 2 ^ 8 + 255)) Bytes8.zero) = .ok (.ct3Enable 255 255) ∧
    decode (.canFrame (BitVec.ofNat 32 (4 * 2 ^ 24 + 0 * 2 ^ 16 + 0 * 2 ^ 8 + 255)) Bytes8.zero) = .ok (.ct4Disable 0 255) ∧
    decode (.canFrame (BitVec.ofNat 32 (18 * 2 ^ 24 + 0 * 2 ^ 16 + 255 * 2 ^ 8 + 0)) ⟨255, 1, 0, 0, 255, 2, 3, 4⟩) =
      .ok (.ct18WriteParam 255 0 0x01FF 0x040302FF) ∧
    decode (.canFrame (BitVec.ofNat 32 (2 * 2 ^ 24 + 255 * 2 ^ 16 + 255 * 2 ^ 8 + 255)) eight) = .ok (.ct2StatusReport 3 63 255 255 eight) ∧
    decode (.canFrame (BitVec.ofNat 32 (17 * 2 ^ 24 + 255 * 2 ^ 16 + 0 * 2 ^ 8 + 255)) eight) = .ok (.ct17ReadParam 255 0 255 eight) ∧
    decode (.canFrame (BitVec.ofNat 32 (0 * 2 ^ 24 + 255 * 2 ^ 16 + 0 * 2 ^ 8 + 255)) eight) = .ok (.ct0DeviceId 0xFF00FF eight) ∧
    decode (.canFrame (BitVec.ofNat 32 (18 * 2 ^ 24 + 1 * 2 ^ 16 + 0 * 2 ^ 8 + 0)) eight) = .error (.noCommunicationType 18) ∧
    decode (.canFrame (BitVec.ofNat 32 (1 * 2 ^ 24 + 0 * 2 ^ 16 + 0 * 2 ^ 8 + 0)) eight) = .error (.noCommunicationType 1) ∧
    decode (.canFrame (BitVec.ofNat 32 (31 * 2 ^ 24 + 255 * 2 ^ 16 + 255 * 2 ^ 8 + 255)) eight) = .error (.noCommunicationType 31) ∧
    answer (.canFrame 0x12000000 ⟨0, 0, 1, 0, 0, 0, 0, 0⟩) = some (.err .unknownCommunicationType 18) ∧
    answer (.canFrame 0x12000000 ⟨0, 0, 0, 255, 0, 0, 0, 0⟩) = some (.err .unknownCommunicationType 18) ∧
    answer (.canFrame 0x20000000 eight) = failed .malformedFrame ∧ 2 ^ 29 ≤ (0x20000000 : Word).toNat ∧
    answer (.canFrame 0xFFFFFFFF eight) = failed .malformedFrame ∧
    (busy (.canFrame 0x20000000 eight)).port = some (.canFrame 0x20000000 eight) ∧
    (busy (.canFrame 0x20000000 eight)).host.head? ≠ some .reset := by
  decide

theorem witness_StepRunsTheDecodedInstruction :
    (busy (.canFrame 0x02847F00 eight)).port = some (.canFrame 0x02847F00 eight) ∧
    (busy (.canFrame 0x02847F00 eight)).host.head? ≠ some .reset ∧
    decode (.canFrame 0x02847F00 eight) = .ok (.ct2StatusReport 2 4 0x7F 0 eight) := by decide

theorem witness_EveryPresentedRequestCompletes :
    (busy (.line [0x54])).port = some (.line [0x54]) ∧ (busy (.line [0x54])).host.head? ≠ some .reset := by decide

theorem witness_InstructionsWriteNothingButRsp :
    exec (.idUnpack 0x1FFFFFFF) (busy (.line [])) =
      .next { busy (.line []) with rsp := some (.ok (.idFields 31 255 255 255)) } := rfl

theorem witness_ResponseDependsOnTheRequestAlone :
    exec (.idUnpack 0x1FFFFFFF) State.reset = .next { State.reset with rsp := some (.ok (.idFields 31 255 255 255)) } ∧
    exec (.idUnpack 0x1FFFFFFF) (busy (.line [])) =
      .next { busy (.line []) with rsp := some (.ok (.idFields 31 255 255 255)) } := ⟨rfl, rfl⟩

theorem witness_ResetDiscardsTheUnansweredRequest :
    ({ busy (.line []) with host := [.reset, .takeResponse] } : State).host = .reset :: [.takeResponse] := rfl

theorem witness_ReadingAnEmptyRspFaults :
    (let s : State := { State.reset with host := [.takeResponse, .reset] }
     s.host = .takeResponse :: [.reset] ∧ s.port = none ∧ s.rsp = none) := by decide

theorem witness_OnlyAnEarlyReadFaults : step { State.reset with host := [.takeResponse] } = .fault .rspEmpty := rfl

theorem witness_HostMovesTouchTheInterfaceAlone :
    (let s : State := { busy (.line []) with port := none }
     s.port = none ∧ s.host = .takeResponse :: [] ∧ s.rsp = some (.ok (.u16 7))) ∧
    (let s : State := { busy (.line []) with port := none, host := [.present (Request.blank 0xFF), .reset] }
     s.port = none ∧ s.host = .present (Request.blank 0xFF) :: [.reset]) := by decide

theorem witness_IdleBlockKeepsRsp :
    (let s : State := { busy (.line []) with port := none, host := [] }
     s.port = none ∧ s.host = []) := by decide

theorem witness_EveryStepKeepsResponsesLegal :
    (busy (.canFrame 0x1F000000 eight)).inv ∧
    step (busy (.canFrame 0x1F000000 eight)) =
      .next { busy (.canFrame 0x1F000000 eight) with port := none, rsp := some (.err .unknownCommunicationType 31) } :=
  ⟨⟨by rintro r ⟨⟩; exact trivial, by intro r h; simp only [busy, List.mem_singleton] at h; subst h; rfl⟩, rfl⟩

theorem witness_DutifulHostNeverFaults : State.dutiful
    { State.reset with host := [.present (Request.blank 0x10), .takeResponse, .reset, .present (Request.blank 0x00), .takeResponse] } =
      true := by decide

/-- The two ends of each range of hex characters, and the characters beside them. -/
theorem witness_HexCharactersAsTheAsciiTable :
    hexU 9 = 0x39 ∧ hexU 10 = 0x41 ∧ hexU 15 = 0x46 ∧ hexval 0x30 = some 0 ∧ hexval 0x39 = some 9 ∧ hexval 0x41 = some 10 ∧
    hexval 0x46 = some 15 ∧ hexval 0x61 = some 10 ∧ hexval 0x66 = some 15 ∧ hexval 0x2F = none ∧ hexval 0x3A = none ∧
    hexval 0x40 = none ∧ hexval 0x47 = none ∧ hexval 0x60 = none ∧ hexval 0x67 = none := by decide

theorem witness_ParseHexWeighsDigitsByPowersOf16 :
    (List.replicate 8 (15 : BitVec 4)).length = 8 ∧ parseHex (List.replicate 8 15) = 2 ^ 32 - 1 := by decide

theorem witness_FrameEncSpellsTheFrame : (0x1FFFFFFF : Word).toNat ≤ 0x1FFFFFFF ∧ (8 : BitVec 4).toNat ≤ 8 := by decide

/-- One frame for each clause, at its boundary. -/
theorem witness_FrameEncErrorsInOrder :
    FrameKind.stdRemote ≠ .extData ∧ 0x1FFFFFFF < (0x20000000 : Word).toNat ∧
    ((0x1FFFFFFF : Word).toNat ≤ 0x1FFFFFFF ∧ 8 < (9 : BitVec 4).toNat) := by decide

theorem witness_FrameDecReadsTheFrame :
    (let input := ascii "T1FFFFFFf1aB"
     input.head? = some 0x54 ∧ (1 : BitVec 4).toNat ≤ 8 ∧ input.length = 10 + 2 * (1 : BitVec 4).toNat ∧
     ((input.drop 1).take 8).map hexval = [(1 : BitVec 4), 15, 15, 15, 15, 15, 15, 15].map some ∧
     (input[9]?).map hexval = some (some (1 : BitVec 4)) ∧ (input.drop 10).map hexval = [(10 : BitVec 4), 11].map some ∧
     parseHex [1, 15, 15, 15, 15, 15, 15, 15] ≤ 0x1FFFFFFF) := by decide

/-- The rest of a line for each clause, at its boundary: a marker 'U', eight characters, 'G' as the last identifier digit,
identifier 0x20000000, 'G' as DLC, DLC 9, a missing and an extra payload character, 'G' as the last character. -/
theorem witness_FrameDecErrorsInOrder :
    (0x55 : Byte) ∉ [0x54, 0x74, 0x52, 0x72] ∧ (ascii "0300647F").length < 9 ∧
    (9 ≤ (ascii "0300647G0").length ∧ ∃ c, (0x54 :: ascii "0300647G0")[8]? = some c ∧ isHex c = false) ∧
    (9 ≤ (ascii "200000000").length ∧ ((ascii "200000000").take 8).map hexval = [(2 : BitVec 4), 0, 0, 0, 0, 0, 0, 0].map some ∧
      0x1FFFFFFF < parseHex [2, 0, 0, 0, 0, 0, 0, 0]) ∧
    (((ascii "1FFFFFFFG").take 8).map hexval = [(1 : BitVec 4), 15, 15, 15, 15, 15, 15, 15].map some ∧
      parseHex [1, 15, 15, 15, 15, 15, 15, 15] ≤ 0x1FFFFFFF ∧ ∃ c, (0x54 :: ascii "1FFFFFFFG")[9]? = some c ∧ isHex c = false) ∧
    (((ascii "1FFFFFFF9")[8]?).map hexval = some (some (9 : BitVec 4)) ∧ 8 < (9 : BitVec 4).toNat) ∧
    (((ascii "1FFFFFFF1A")[8]?).map hexval = some (some (1 : BitVec 4)) ∧ (ascii "1FFFFFFF1A").length + 1 ≠ 10 + 2 * (1 : BitVec 4).toNat) ∧
    (ascii "1FFFFFFF0A").length + 1 ≠ 10 + 2 * (0 : BitVec 4).toNat ∧
    ((ascii "1FFFFFFF1AG").length + 1 = 10 + 2 * (1 : BitVec 4).toNat ∧
      ∃ c, (0x54 :: ascii "1FFFFFFF1AG")[11]? = some c ∧ isHex c = false) := by
  refine ⟨by decide, by decide, ⟨by decide, 0x47, by decide, by decide⟩, by decide, ⟨by decide, by decide, 0x47, by decide, by decide⟩,
    by decide, by decide, by decide, ⟨by decide, 0x47, by decide, by decide⟩⟩

theorem witness_FrameDecInvertsFrameEnc : (0x1FFFFFFF : Word).toNat ≤ 0x1FFFFFFF ∧ (8 : BitVec 4).toNat ≤ 8 := by decide

theorem witness_CanonicalLinesEncodeBack :
    (∀ c ∈ ascii "T0300647F1AB", c.toNat < 0x61) ∧
    exec (.frameDec (ascii "T0300647F1AB")) State.reset =
      .next { State.reset with rsp := some (.ok (.frame .extData 0x0300647F 1 [0xAB])) } ∧
    (Bytes8.toList ⟨0xAB, 1, 2, 3, 4, 5, 6, 7⟩).take (1 : BitVec 4).toNat = [0xAB] := ⟨by decide, rfl, rfl⟩

theorem witness_LineTerminatorIsNeverAccepted :
    ¬ terminatorStripped (ascii "T02007F00880008000800000C" ++ [0x0D]) ∧ (ascii "T02007F00880008000800000C" ++ [0x0D]).length = 26 := by
  unfold terminatorStripped
  decide

/-- The largest legal ids and type, the first id out of range in either place, and the first type out of range. -/
theorem witness_IdPackPlacesTheFields :
    ((127 : Byte).toNat ≤ 127 ∧ (127 : Byte).toNat ≤ 127 ∧ (21 : BitVec 5).toNat ≤ 21) ∧
    (127 < (128 : Byte).toNat ∨ 127 < (0 : Byte).toNat) ∧ (127 < (0 : Byte).toNat ∨ 127 < (128 : Byte).toNat) ∧
    ((127 : Byte).toNat ≤ 127 ∧ (127 : Byte).toNat ≤ 127 ∧ 21 < (22 : BitVec 5).toNat) := by decide

theorem witness_IdsOutOfRangeAreNeverClamped :
    (127 < (128 : Byte).toNat ∨ 127 < (0 : Byte).toNat) ∧ (127 < (0 : Byte).toNat ∨ 127 < (128 : Byte).toNat) := by decide

theorem witness_PackedIdentifiersUnpackThroughAFrame :
    (21 : BitVec 5).toNat ≤ 21 ∧ (127 : Byte).toNat ≤ 127 ∧ (0 : Byte).toNat ≤ 127 ∧ (8 : BitVec 4).toNat ≤ 8 := by decide

/-- For both clauses of EnableAndDisableFrames, WriteFloatFrame and CommandRowsDrawTheirCommandsFrames, and for RunModeFrame
and CommandFramesCarryTheirOperands. -/
theorem witness_legal_and_illegal_ids :
    ((127 : Byte).toNat ≤ 127 ∧ (0 : Byte).toNat ≤ 127) ∧ (127 < (127 : Byte).toNat ∨ 127 < (128 : Byte).toNat) := by decide

theorem witness_LengthThenFrameErrorsComeFirst :
    (ascii "t02007F00880008000800000C80").length ≠ 26 ∧
    (ascii "T02007F00880008000800000CG").length = 26 ∧
    exec (.frameDec (ascii "T02007F00880008000800000CG")) State.reset =
      .next { State.reset with rsp := some (.err .invalidHexDigit 0) } := ⟨by decide, by decide, rfl⟩

/-- A line for each clause: types 2, 17, 0 and, at the ends of the other values, 1 and 31. -/
theorem witness_ResponseDispatchesOnTheType :
    ∀ p ∈ [("T02FF7F0180123456789ABCDEF", (0x02FF7F01 : CanId), 2), ("T11AB7FFD80123456789ABCDEF", 0x11AB7FFD, 17),
        ("T00007F0080123456789ABCDEF", 0x00007F00, 0), ("T01007F0080123456789ABCDEF", 0x01007F00, 1),
        ("T1F00FFFF80123456789ABCDEF", 0x1F00FFFF, 31)],
      (ascii p.1).length = 26 ∧ p.2.1.toNat / 2 ^ 24 = p.2.2 ∧
      answer (.request { Request.blank 0x02 with input := ascii p.1 }) = some (.ok (.frame .extData p.2.1 8 eight.toList)) := by
  decide

/-- A line of each type, with digits of both cases. -/
theorem witness_ReplyLinesDecode :
    ∀ p ∈ [("T02fF7F0180123456789abCDEF", [(0 : BitVec 4), 2, 15, 15, 7, 15, 0, 1], 2),
        ("T11AB7FfD80123456789ABcdEF", [1, 1, 10, 11, 7, 15, 15, 13], 17)],
      (ascii p.1).length = 26 ∧ (ascii p.1).head? = some 0x54 ∧ (ascii p.1)[9]? = some 0x38 ∧
      (((ascii p.1).drop 1).take 8).map hexval = p.2.1.map some ∧
      ((ascii p.1).drop 10).map hexval = [(0 : BitVec 4), 1, 2, 3, 4, 5, 6, 7, 8, 9, 10, 11, 12, 13, 14, 15].map some ∧
      parseHex p.2.1 / 2 ^ 24 = p.2.2 := by decide

theorem witness_DecodedQuantitiesAreInRange : Quantity.torque ≠ .temp := by decide

theorem witness_QEncCompletesOnFiniteValues :
    F32.isFinite (F32.fromBits32 0x7F7FFFFF) = true ∧ F32.isFinite (F32.fromBits32 0x80000001) = true := by decide

/-- Both infinities, and the NaNs at the two ends of their patterns. -/
theorem witness_QEncRejectsNonFiniteValues :
    (0x7F800000 : Word).toNat / 2 ^ 23 % 2 ^ 8 = 255 ∧ (0xFF800000 : Word).toNat / 2 ^ 23 % 2 ^ 8 = 255 ∧
    (0x7F800001 : Word).toNat / 2 ^ 23 % 2 ^ 8 = 255 ∧ (0xFFFFFFFF : Word).toNat / 2 ^ 23 % 2 ^ 8 = 255 := by decide

/-- The value one step below `min` and the one one step above `min + range`, for speed (-30 and 30). -/
theorem witness_OutOfRangeValuesClamp :
    F32.isFinite (F32.fromBits32 0xC1F00001) = true ∧
    (F32.fromBits32 0xC1F00001).units < (F32.fromBits32 (lutMin .speed)).units ∧
    F32.isFinite (F32.fromBits32 0x41F00001) = true ∧
    (F32.fromBits32 (lutMin .speed)).units + (F32.fromBits32 (lutRange .speed)).units < (F32.fromBits32 0x41F00001).units ∧
    clamp (.int (-1)) = 0 ∧ clamp (.int 0) = 0 ∧ clamp (.int 65535) = 65535 ∧ clamp (.int 65536) = 65535 := by
  refine ⟨by decide, ?_, by decide, ?_, by decide, by decide, by decide, by decide⟩
  · rw [show F32.fromBits32 0xC1F00001 = .fin true (0xF00001 * 2 ^ 130) by decide,
      show F32.fromBits32 (lutMin .speed) = .fin true (0xF00000 * 2 ^ 130) by decide]
    norm_num [F32.units]
  · rw [show F32.fromBits32 0x41F00001 = .fin false (0xF00001 * 2 ^ 130) by decide,
      show F32.fromBits32 (lutMin .speed) = .fin true (0xF00000 * 2 ^ 130) by decide,
      show F32.fromBits32 (lutRange .speed) = .fin false (0xF00000 * 2 ^ 131) by decide]
    norm_num [F32.units]

/-- For the second clause a tie: `2^24 + 1` units lie halfway between two patterns, and the even one is taken. -/
theorem witness_RoundsToNearestTiesToEven :
    0 < 1 ∧ F32.roundPattern (2 ^ 24 + 1) 1 < F32.infPattern ∧ F32.roundPattern (2 ^ 24 + 1) 1 + 1 < F32.infPattern ∧
    F32.patternDistance (2 ^ 24 + 1) 1 (F32.roundPattern (2 ^ 24 + 1) 1) =
      F32.patternDistance (2 ^ 24 + 1) 1 (F32.roundPattern (2 ^ 24 + 1) 1 + 1) ∧
    F32.roundPattern (2 ^ 24 + 1) 1 + 1 ≠ F32.roundPattern (2 ^ 24 + 1) 1 := by decide

/-- The least value that overflows, and one unit less. -/
theorem witness_RoundingOverflowsToInfinity :
    F32.infPattern ≤ F32.roundPattern ((2 ^ 25 - 1) * 2 ^ 252) 1 ∧
    ¬ F32.infPattern ≤ F32.roundPattern ((2 ^ 25 - 1) * 2 ^ 252 - 1) 1 := by
  have lo : (2 : Nat) ^ 276 = 2 ^ 252 * 2 ^ 24 := by rw [← pow_add]
  have hi : (2 : Nat) ^ 277 = 2 ^ 252 * 2 ^ 25 := by rw [← pow_add]
  have h1 : Nat.log2 ((2 ^ 25 - 1) * 2 ^ 252) = 276 := (Nat.log2_eq_iff (by norm_num)).mpr (by rw [lo, hi]; norm_num)
  have h2 : Nat.log2 ((2 ^ 25 - 1) * 2 ^ 252 - 1) = 276 := (Nat.log2_eq_iff (by norm_num)).mpr (by rw [lo, hi]; norm_num)
  simp only [F32.roundPattern, F32.infPattern, Nat.div_one, h1, h2]
  norm_num

theorem witness_EachOperationRoundsOnce : (1 : Nat) ≠ 0 := by decide

theorem witness_BitPatternsRoundTrip :
    F32.fromBits32 0x80000001 = .fin true 1 ∧ F32.fromBits32 0xFF800000 = .inf true ∧ F32.fromBits32 0xFF800001 = .nan true 0 ∧
    F32.fromBits32 0x7FFFFFFF = .nan false 0x7FFFFE ∧ 0 < 1 := by decide

theorem witness_SmallIntegersAreExact : 65535 ≤ 65535 ∧ F32.toF32 65535 = .fin false (65535 * 2 ^ 149) := by decide

end Sys2Proof.Tests
end

section
/-! SUPPORT. The rounding function by its two neighbours: a value lies between the magnitudes of two neighbouring patterns,
and the midpoint of the two decides which of them it rounds to. -/

namespace Sys2Proof.Machine.F32

/-- A 24-bit significand `n`, normal unless the exponent is 0, sits `n` patterns above its exponent's base. At `n = 2 ^ 24` the
pattern is the first one of the next binade. -/
theorem magOfPattern_base_add {e n : Nat} (h : e = 0 ∨ 2 ^ 23 ≤ n) (hn : n ≤ 2 ^ 24) :
    magOfPattern (e * 2 ^ 23 + n) = n * 2 ^ e := by
  unfold magOfPattern
  by_cases hsub : n < 2 ^ 23
  · obtain rfl : e = 0 := by omega
    rw [Nat.zero_mul, Nat.zero_add, if_pos hsub, pow_zero, Nat.mul_one]
  rw [if_neg (by omega)]
  by_cases htop : n = 2 ^ 24
  · subst htop
    rw [show (e * 2 ^ 23 + 2 ^ 24) / 2 ^ 23 - 1 = e + 1 by omega, show (e * 2 ^ 23 + 2 ^ 24) % 2 ^ 23 = 0 by omega]
    ring
  · rw [show (e * 2 ^ 23 + n) / 2 ^ 23 - 1 = e by omega, show 2 ^ 23 + (e * 2 ^ 23 + n) % 2 ^ 23 = n by omega]

/-- Every pattern is a significand of at most 24 bits above the base of an exponent. -/
theorem exists_base_add (w : Nat) : ∃ e n, (e = 0 ∨ 2 ^ 23 ≤ n) ∧ n < 2 ^ 24 ∧ w = e * 2 ^ 23 + n := by
  by_cases h : w < 2 ^ 23
  · exact ⟨0, w, .inl rfl, by omega, by omega⟩
  · exact ⟨w / 2 ^ 23 - 1, 2 ^ 23 + w % 2 ^ 23, .inr (by omega), by omega, by omega⟩

/-- A larger pattern is a larger magnitude. -/
theorem magOfPattern_strictMono : StrictMono magOfPattern := by
  refine strictMono_nat_of_lt_succ fun w => ?_
  obtain ⟨e, n, he, hn, rfl⟩ := exists_base_add w
  rw [Nat.add_assoc, magOfPattern_base_add he hn.le, magOfPattern_base_add (by omega) (by omega)]
  exact Nat.mul_lt_mul_of_pos_right (by omega) (by positivity)

/-- The quotient that rounding keeps has 24 bits, unless the step is one unit. -/
theorem quotient_normal (num den : Nat) :
    (num / den).log2 - 23 = 0 ∨ 2 ^ 23 ≤ num / (den * 2 ^ ((num / den).log2 - 23)) := by
  by_cases he : (num / den).log2 - 23 = 0
  · exact .inl he
  right
  have hq : num / den ≠ 0 := by
    intro h0
    simp [h0] at he
  rw [← Nat.div_div_eq_div_mul, Nat.le_div_iff_mul_le (by positivity), ← pow_add]
  rw [show 23 + ((num / den).log2 - 23) = (num / den).log2 by omega]
  exact Nat.log2_self_le hq

/-- What rounding does: the value lies between the magnitudes of `v` and `v + 1`, and `v + 1` is taken above their midpoint,
and at it when `v` is odd. -/
theorem roundPattern_between (num : Nat) {den : Nat} (hden : 0 < den) :
    ∃ v, magOfPattern v * den ≤ num ∧ num < magOfPattern (v + 1) * den ∧
      ((roundPattern num den = v ∧ (2 * num < magOfPattern v * den + magOfPattern (v + 1) * den ∨
          (2 * num = magOfPattern v * den + magOfPattern (v + 1) * den ∧ v % 2 = 0))) ∨
        (roundPattern num den = v + 1 ∧ (magOfPattern v * den + magOfPattern (v + 1) * den < 2 * num ∨
          (magOfPattern v * den + magOfPattern (v + 1) * den = 2 * num ∧ v % 2 = 1)))) := by
  have hnormal := quotient_normal num den
  have hlt := quotient_lt num den
  unfold roundPattern
  dsimp only
  generalize (num / den).log2 - 23 = e at *
  have hpos : 0 < den * 2 ^ e := by positivity
  have hsplit := Nat.div_add_mod num (den * 2 ^ e)
  have hrest := Nat.mod_lt num hpos
  generalize num / (den * 2 ^ e) = n at *
  generalize num % (den * 2 ^ e) = rest at *
  have hlow : magOfPattern (e * 2 ^ 23 + n) * den = den * 2 ^ e * n := by
    rw [magOfPattern_base_add hnormal hlt.le]; ring
  have hhigh : magOfPattern (e * 2 ^ 23 + n + 1) * den = den * 2 ^ e * n + den * 2 ^ e := by
    rw [Nat.add_assoc, magOfPattern_base_add (by omega) (by omega)]; ring
  refine ⟨e * 2 ^ 23 + n, by omega, by omega, ?_⟩
  rw [hlow, hhigh]
  split_ifs with hup
  · exact .inr ⟨rfl, by omega⟩
  · exact .inl ⟨Nat.add_zero _, by omega⟩

/-- When a value rounds above the pattern `w`: above the midpoint of `w` and the next pattern, and at it when `w` is odd. -/
theorem lt_roundPattern_iff (num : Nat) {den : Nat} (hden : 0 < den) (w : Nat) :
    w < roundPattern num den ↔ magOfPattern w * den + magOfPattern (w + 1) * den < 2 * num ∨
      (magOfPattern w * den + magOfPattern (w + 1) * den = 2 * num ∧ w % 2 = 1) := by
  obtain ⟨v, hlow, hhigh, hround⟩ := roundPattern_between num hden
  have hstep := Nat.mul_lt_mul_of_pos_right (magOfPattern_strictMono (Nat.lt_add_one w)) hden
  obtain hw | rfl | hw := Nat.lt_trichotomy w v
  · have hle := Nat.mul_le_mul_right den (magOfPattern_strictMono.monotone (show w + 1 ≤ v from hw))
    omega
  · omega
  · have hle := Nat.mul_le_mul_right den (magOfPattern_strictMono.monotone (show v + 1 ≤ w from hw))
    omega

/-- Rounding is exact on the magnitudes of patterns. -/
@[simp] theorem roundPattern_magOfPattern (w : Nat) : roundPattern (magOfPattern w) 1 = w := by
  obtain ⟨v, hlow, hhigh, hround⟩ := roundPattern_between (magOfPattern w) Nat.one_pos
  simp only [Nat.mul_one] at hlow hhigh hround
  have hvw := magOfPattern_strictMono.le_iff_le.mp hlow
  have hwv := magOfPattern_strictMono.lt_iff_lt.mp hhigh
  obtain rfl : v = w := by omega
  omega

/-- A number that a finite pattern spells is itself after rounding. -/
theorem ofRat_magOfPattern (neg : Bool) {w : Nat} (hw : w < infPattern) :
    ofRat neg (magOfPattern w) 1 = .fin neg (magOfPattern w) := by
  simp [ofRat, hw]

/-- Rounding takes a nearest pattern, and of two equally near the even one. -/
theorem roundPattern_nearest (num : Nat) {den : Nat} (hden : 0 < den) (w : Nat) :
    patternDistance num den (roundPattern num den) ≤ patternDistance num den w ∧
    (patternDistance num den (roundPattern num den) = patternDistance num den w →
      w ≠ roundPattern num den → roundPattern num den % 2 = 0) := by
  obtain ⟨v, hlow, hhigh, hround⟩ := roundPattern_between num hden
  unfold patternDistance
  obtain hw | rfl | rfl | hw : w < v ∨ w = v ∨ w = v + 1 ∨ v + 1 < w := by omega
  · have hfar := Nat.mul_lt_mul_of_pos_right (magOfPattern_strictMono hw) hden
    obtain ⟨hv, hmid⟩ | ⟨hv, hmid⟩ := hround <;> rw [hv] <;> omega
  · obtain ⟨hv, hmid⟩ | ⟨hv, hmid⟩ := hround <;> rw [hv] <;> omega
  · obtain ⟨hv, hmid⟩ | ⟨hv, hmid⟩ := hround <;> rw [hv] <;> omega
  · have hfar := Nat.mul_lt_mul_of_pos_right (magOfPattern_strictMono hw) hden
    obtain ⟨hv, hmid⟩ | ⟨hv, hmid⟩ := hround <;> rw [hv] <;> omega

/-- Settles O56: the value lies between two neighbouring patterns, and every other pattern is further off than one of them. -/
theorem roundsToNearestTiesToEven : Obligations.RoundsToNearestTiesToEven :=
  fun num _ w hden _ _ => roundPattern_nearest num hden w

/-- The midpoint between the largest finite magnitude and what would be the next one. -/
theorem magOfPattern_infPattern_midpoint :
    magOfPattern (infPattern - 1) + magOfPattern (infPattern - 1 + 1) = 2 * ((2 ^ 25 - 1) * 2 ^ 252) := by
  have hlast : magOfPattern (infPattern - 1) = (2 ^ 24 - 1) * 2 ^ 253 :=
    magOfPattern_base_add (e := 253) (n := 2 ^ 24 - 1) (by norm_num) (by norm_num)
  have hinf : magOfPattern (infPattern - 1 + 1) = 2 ^ 24 * 2 ^ 253 :=
    magOfPattern_base_add (e := 253) (n := 2 ^ 24) (by norm_num) (by norm_num)
  rw [hlast, hinf]
  norm_num

/-- Settles O57: the largest finite pattern is odd, so its midpoint with the next one already rounds up. -/
theorem roundingOverflowsToInfinity : Obligations.RoundingOverflowsToInfinity := by
  intro num den hden
  have h := lt_roundPattern_iff num hden (infPattern - 1)
  rw [← Nat.add_mul, magOfPattern_infPattern_midpoint, Nat.mul_assoc] at h
  have hodd : (infPattern - 1) % 2 = 1 := by decide
  have hpos : 0 < infPattern := by decide
  omega

/-- A number of at most 24 bits, shifted up to 24 bits, is a normal significand. -/
theorem shifted_normal {n : Nat} (hn : n ≠ 0) (hlog : n.log2 ≤ 23) :
    2 ^ 23 ≤ n * 2 ^ (23 - n.log2) ∧ n * 2 ^ (23 - n.log2) < 2 ^ 24 := by
  constructor
  · calc 2 ^ 23 = 2 ^ n.log2 * 2 ^ (23 - n.log2) := by rw [← pow_add, Nat.add_sub_cancel' hlog]
      _ ≤ n * 2 ^ (23 - n.log2) := Nat.mul_le_mul_right _ (Nat.log2_self_le hn)
  · calc n * 2 ^ (23 - n.log2) < 2 ^ (n.log2 + 1) * 2 ^ (23 - n.log2) :=
          Nat.mul_lt_mul_of_pos_right Nat.lt_log2_self (by positivity)
      _ = 2 ^ 24 := by rw [← pow_add]; congr 1; omega

/-- Settles O60: `n` has at most 16 bits, so shifted up to 24 bits it is the significand of a finite pattern. -/
theorem smallIntegersAreExact : Obligations.SmallIntegersAreExact := by
  intro n hn
  obtain rfl | hn0 := eq_or_ne n 0
  · exact ofRat_magOfPattern false (w := 0) (by decide)
  have hlog : n.log2 < 16 := (Nat.log2_lt hn0).mpr (by omega)
  obtain ⟨hnormal, hbits⟩ := shifted_normal hn0 (by omega)
  have hmag : magOfPattern ((126 + n.log2) * 2 ^ 23 + n * 2 ^ (23 - n.log2)) = n * 2 ^ 149 := by
    rw [magOfPattern_base_add (.inr hnormal) hbits.le, Nat.mul_assoc, ← pow_add]
    congr 2
    omega
  rw [toF32, ← hmag]
  exact ofRat_magOfPattern false (by unfold infPattern; omega)

end Sys2Proof.Machine.F32
end

section
/-! SUPPORT. Bit patterns: a pattern is a sign bit above a 31-bit magnitude pattern. -/

namespace Sys2Proof.Machine.F32

/-- A pattern is its sign bit and its magnitude pattern. -/
theorem signBit_msb_add (w : Word) : signBit w.msb + w.toNat % 2 ^ 31 = w.toNat := by
  have hw := w.isLt
  rw [BitVec.msb_eq_decide, signBit]
  split_ifs with h <;> simp only [decide_eq_true_eq] at h <;> omega

theorem signBit_add_lt (neg : Bool) {p : Nat} (hp : p < 2 ^ 31) : signBit neg + p < 2 ^ 32 := by
  unfold signBit
  split_ifs <;> omega

theorem signBit_add_mod (neg : Bool) {p : Nat} (hp : p < 2 ^ 31) :
    (BitVec.ofNat 32 (signBit neg + p)).toNat % 2 ^ 31 = p := by
  rw [BitVec.toNat_ofNat, Nat.mod_eq_of_lt (signBit_add_lt neg hp)]
  unfold signBit
  split_ifs <;> omega

theorem msb_signBit_add (neg : Bool) {p : Nat} (hp : p < 2 ^ 31) :
    (BitVec.ofNat 32 (signBit neg + p)).msb = neg := by
  rw [BitVec.msb_eq_decide, BitVec.toNat_ofNat, Nat.mod_eq_of_lt (signBit_add_lt neg hp)]
  cases neg with
  | false => exact decide_eq_false (by rw [signBit, if_neg Bool.false_ne_true]; omega)
  | true => exact decide_eq_true (by rw [signBit, if_pos rfl]; omega)

/-! What a sign bit and a magnitude pattern spell. -/

theorem fromBits32_finite (neg : Bool) {p : Nat} (hp : p < infPattern) :
    fromBits32 (BitVec.ofNat 32 (signBit neg + p)) = .fin neg (magOfPattern p) := by
  have hp31 : p < 2 ^ 31 := hp.trans (by decide)
  rw [fromBits32, signBit_add_mod neg hp31, msb_signBit_add neg hp31, if_pos hp]

theorem fromBits32_infPattern (neg : Bool) : fromBits32 (BitVec.ofNat 32 (signBit neg + infPattern)) = .inf neg := by
  have hp31 : infPattern < 2 ^ 31 := by decide
  rw [fromBits32, signBit_add_mod neg hp31, msb_signBit_add neg hp31, if_neg (lt_irrefl _), if_pos rfl]

theorem fromBits32_bits32_nan (neg : Bool) (k : Fin 0x7FFFFF) : fromBits32 (bits32 (.nan neg k)) = .nan neg k := by
  have hp31 : infPattern + 1 + k.val < 2 ^ 31 := by unfold infPattern; omega
  have hk : infPattern + 1 + k.val - infPattern - 1 = k.val := by omega
  rw [bits32, show signBit neg + infPattern + 1 + k.val = signBit neg + (infPattern + 1 + k.val) by omega, fromBits32,
    signBit_add_mod neg hp31, msb_signBit_add neg hp31, if_neg (by omega), if_neg (by omega), hk, Fin.ofNat_val_eq_self]

/-- Reading back the pattern of a rounded value: a rounded value is finite with a finite pattern's magnitude, or an infinity. -/
theorem fromBits32_bits32_ofRat (neg : Bool) (num den : Nat) :
    fromBits32 (bits32 (ofRat neg num den)) = ofRat neg num den := by
  unfold ofRat
  split_ifs with h
  · rw [bits32, roundPattern_magOfPattern, fromBits32_finite neg h]
  · rw [bits32, fromBits32_infPattern]

/-- Spelling the value of a pattern gives the pattern, in each of its three ranges: finite, infinity, NaN. -/
theorem bits32_fromBits32 (w : Word) : bits32 (fromBits32 w) = w := by
  have hsplit := signBit_msb_add w
  have hw : BitVec.ofNat 32 (signBit w.msb + w.toNat % 2 ^ 31) = w := by rw [hsplit, BitVec.ofNat_toNat, BitVec.setWidth_eq]
  unfold fromBits32
  split_ifs with hfin hinf
  · rw [bits32, roundPattern_magOfPattern, hw]
  · rw [bits32, ← hinf, hw]
  · have hlt : w.toNat % 2 ^ 31 - infPattern - 1 < 0x7FFFFF := by
      unfold infPattern at *
      omega
    rw [bits32, Fin.val_ofNat, Nat.mod_eq_of_lt hlt]
    rw [show signBit w.msb + infPattern + 1 + (w.toNat % 2 ^ 31 - infPattern - 1) = signBit w.msb + w.toNat % 2 ^ 31 by omega]
    exact hw

/-- Settles O59: a pattern is a sign bit and a magnitude pattern, and rounding is exact on the magnitudes of patterns. -/
theorem bitPatternsRoundTrip : Obligations.BitPatternsRoundTrip :=
  ⟨bits32_fromBits32, fun neg num den _ => fromBits32_bits32_ofRat neg num den, fromBits32_bits32_nan⟩

end Sys2Proof.Machine.F32
end

section
/-! SUPPORT. The four operations on finite numbers, as roundings of exact values. -/

namespace Sys2Proof.Machine.F32

/-- The sign of a number, as a factor. -/
def realSign (neg : Bool) : Rat := if neg then -1 else 1

/-- The sign of a product or a quotient. -/
theorem realSign_xor (a b : Bool) : realSign (a ^^ b) = realSign a * realSign b := by
  cases a <;> cases b <;> norm_num [realSign]

theorem realSign_not (b : Bool) : realSign (!b) = -realSign b := by cases b <;> norm_num [realSign]

theorem realSign_inv (b : Bool) : (realSign b)⁻¹ = realSign b := by cases b <;> norm_num [realSign]

theorem units_fin (a : Bool) (x : Nat) : (F32.fin a x).units = realSign a * x := by
  cases a <;> simp [units, realSign]

/-- `r` is the rounding of the exact value `exact`, in units. -/
def IsRoundingOf (r : F32) (exact : Rat) : Prop :=
  ∃ (neg : Bool) (num den : Nat), 0 < den ∧ r = ofRat neg num den ∧ exact = realSign neg * ((num : Rat) / (den : Rat))

theorem isRoundingOf_ofRat_one {neg : Bool} {num : Nat} {exact : Rat} (h : exact = realSign neg * num) :
    IsRoundingOf (ofRat neg num 1) exact :=
  ⟨neg, num, 1, Nat.one_pos, rfl, by rw [h, Nat.cast_one, div_one]⟩

/-- The sum of finite numbers, whatever NaN it is given for the invalid cases: magnitudes add under one sign, and under unlike
signs the smaller is taken from the larger. -/
theorem isRoundingOf_sum (i : F32) (a b : Bool) (x y : Nat) :
    IsRoundingOf (sum i (.fin a x) (.fin b y)) ((F32.fin a x).units + (F32.fin b y).units) := by
  rw [units_fin, units_fin]
  simp only [sum]
  split_ifs with hsign heq hlt
  · subst hsign
    exact isRoundingOf_ofRat_one (by push_cast; ring)
  all_goals obtain rfl : a = !b := Bool.eq_not.mpr hsign
  all_goals rw [realSign_not]
  · rw [← show ofRat false 0 1 = .fin false 0 from ofRat_magOfPattern false (w := 0) (by decide)]
    exact isRoundingOf_ofRat_one (by rw [heq]; push_cast; ring)
  · exact isRoundingOf_ofRat_one (by rw [Nat.cast_sub hlt.le, realSign_not]; ring)
  · exact isRoundingOf_ofRat_one (by rw [Nat.cast_sub (by omega)]; ring)

theorem isRoundingOf_sub (a b : Bool) (x y : Nat) :
    IsRoundingOf (sub (.fin a x) (.fin b y)) ((F32.fin a x).units - (F32.fin b y).units) := by
  have hneg : (F32.fin b y).units = -(F32.fin (!b) y).units := by
    rw [units_fin, units_fin, realSign_not]
    ring
  rw [hneg, sub_neg_eq_add]
  exact isRoundingOf_sum _ a (!b) x y

/-- Both factors count units, so their product counts `2 ^ 149` to the unit. -/
theorem isRoundingOf_mul (a b : Bool) (x y : Nat) :
    IsRoundingOf (mul (.fin a x) (.fin b y)) ((F32.fin a x).units * (F32.fin b y).units / 2 ^ 149) := by
  refine ⟨a ^^ b, x * y, 2 ^ 149, by positivity, mul_fin a b x y, ?_⟩
  rw [realSign_xor, units_fin, units_fin]
  push_cast
  ring

theorem isRoundingOf_div (a b : Bool) (x : Nat) {y : Nat} (hy : y ≠ 0) :
    IsRoundingOf (div (.fin a x) (.fin b y)) ((F32.fin a x).units * 2 ^ 149 / (F32.fin b y).units) := by
  refine ⟨a ^^ b, x * 2 ^ 149, y, Nat.pos_of_ne_zero hy, div_fin a b x hy, ?_⟩
  rw [realSign_xor, units_fin, units_fin, div_mul_eq_div_div, div_eq_mul_inv _ (realSign b), realSign_inv]
  push_cast
  ring

/-- Settles O58, operation by operation. -/
theorem eachOperationRoundsOnce : Obligations.EachOperationRoundsOnce :=
  fun a b x y => ⟨isRoundingOf_sum _ a b x y, isRoundingOf_sub a b x y, isRoundingOf_mul a b x y, isRoundingOf_div a b x⟩

end Sys2Proof.Machine.F32
end

section
/-! SUPPORT. Hex characters, range by range. -/

namespace Sys2Proof.Machine

theorem hexU_digit {n : BitVec 4} (h : n.toNat ≤ 9) : hexU n = BitVec.ofNat 8 (0x30 + n.toNat) := by
  rw [hexU, if_pos h]
  bv_omega

theorem hexU_letter {n : BitVec 4} (h : 10 ≤ n.toNat) : hexU n = BitVec.ofNat 8 (0x41 + (n.toNat - 10)) := by
  rw [hexU, if_neg (by omega)]
  bv_omega

theorem isHex_iff (c : Byte) : isHex c = true ↔
    (0x30 ≤ c.toNat ∧ c.toNat ≤ 0x39) ∨ (0x41 ≤ c.toNat ∧ c.toNat ≤ 0x46) ∨ (0x61 ≤ c.toNat ∧ c.toNat ≤ 0x66) := by
  simp [isHex, or_assoc]

theorem hexval_digit {c : Byte} (h : 0x30 ≤ c.toNat) (h' : c.toNat ≤ 0x39) : hexval c = some (BitVec.ofNat 4 (c.toNat - 0x30)) :=
  if_pos ⟨h, h'⟩

theorem hexval_upper {c : Byte} (h : 0x41 ≤ c.toNat) (h' : c.toNat ≤ 0x46) :
    hexval c = some (BitVec.ofNat 4 (c.toNat - 0x41 + 10)) := by
  rw [hexval, if_neg (by omega), if_pos ⟨h, h'⟩]

theorem hexval_lower {c : Byte} (h : 0x61 ≤ c.toNat) (h' : c.toNat ≤ 0x66) :
    hexval c = some (BitVec.ofNat 4 (c.toNat - 0x61 + 10)) := by
  rw [hexval, if_neg (by omega), if_neg (by omega), if_pos ⟨h, h'⟩]

/-- Settles O20, range by range of the ASCII table. -/
theorem hexCharactersAsTheAsciiTable : Obligations.HexCharactersAsTheAsciiTable :=
  ⟨fun _ => ⟨hexU_digit, hexU_letter⟩, isHex_iff,
    fun _ => ⟨hexval_digit, hexval_upper, hexval_lower, hexval_eq_none.mpr⟩, hexval_hexU⟩

end Sys2Proof.Machine
end

section
/-! SUPPORT. A step once it is known who moves, and the statements about single steps and single instructions. -/

namespace Sys2Proof.Machine

/-- A record at the input is performed next, unless a reset comes first. -/
theorem step_block {s : State} {p : Presented} (hp : s.port = some p) (h : s.host.head? ≠ some .reset) :
    step s = perform p { s with port := none } := by
  simp only [step, agentStep, turn_block hp h]

/-- With nothing in presentation the host makes its next move. -/
theorem step_host {s : State} {m : HostMove} {rest : List HostMove} (hp : s.port = none) (h : s.host = m :: rest) :
    step s = hostMove m { s with host := rest } := by
  simp only [step, agentStep, turn_host hp h]

theorem perform_decoded {p : Presented} {i : Instr} (h : decode p = .ok i) (s : State) : perform p s = exec i s := by
  simp only [perform, h]

theorem perform_undecoded {p : Presented} {e : DecodeError} (h : decode p = .error e) (s : State) :
    perform p s = .next (answerUndecoded e s) := by
  simp only [perform, h]

theorem takeResponse_some {s : State} {r : Response} (h : s.rsp = some r) :
    takeResponse s = .next { s with observed := s.observed ++ [r] } := by
  simp only [takeResponse, h]

theorem takeResponse_none {s : State} (h : s.rsp = none) : takeResponse s = .fault .rspEmpty := by
  simp only [takeResponse, h]

/-- Settles O6. -/
theorem stepRunsTheDecodedInstruction : Obligations.StepRunsTheDecodedInstruction :=
  fun _ _ _ hp hreset hdecode => (step_block hp hreset).trans (perform_decoded hdecode _)

/-- Settles O7: the block answers whatever stands at its input. -/
theorem everyPresentedRequestCompletes : Obligations.EveryPresentedRequestCompletes := by
  intro s p hp hreset
  obtain ⟨r, hanswer⟩ := perform_answers p
  exact ⟨r, (step_block hp hreset).trans (hanswer _)⟩

/-- Settles O8. -/
theorem instructionsWriteNothingButRsp : Obligations.InstructionsWriteNothingButRsp := by
  intro i s t hexec
  obtain ⟨r, hanswer⟩ := exec_answers i
  rw [hanswer, Host.Outcome.next.injEq] at hexec
  exact ⟨r, hexec.symm⟩

/-- Settles O9: the response that `exec_answers` gives is chosen before the state. -/
theorem responseDependsOnTheRequestAlone : Obligations.ResponseDependsOnTheRequestAlone := by
  intro i s t s' t' hs ht
  obtain ⟨r, hanswer⟩ := exec_answers i
  rw [hanswer, Host.Outcome.next.injEq] at hs ht
  rw [← hs, ← ht]

/-- Settles O10. -/
theorem resetLeavesRspNone : Obligations.ResetLeavesRspNone := ⟨rfl, rfl⟩

/-- Settles O12. -/
theorem readingAnEmptyRspFaults : Obligations.ReadingAnEmptyRspFaults :=
  fun _ _ hhost hport hrsp => (step_host hport hhost).trans (takeResponse_none hrsp)

/-- Settles O14. -/
theorem hostMovesTouchTheInterfaceAlone : Obligations.HostMovesTouchTheInterfaceAlone :=
  fun _ _ hport =>
    ⟨fun _ hhost => step_host hport hhost, fun _ hhost hrsp => (step_host hport hhost).trans (takeResponse_some hrsp)⟩

/-- Settles O13: of all that a step can do, only taking a response that is not there stops the machine. -/
theorem onlyAnEarlyReadFaults : Obligations.OnlyAnEarlyReadFaults := by
  intro s
  obtain ⟨_, -, h⟩ | ⟨_, _, -, -, h⟩ | ⟨_, _, -, -, h⟩ | ⟨_, _, -, -, -, h⟩ | ⟨_, hport, hhost, hrsp, h⟩ | ⟨-, -, h⟩ :=
    step_cases s
  case inr.inr.inr.inr.inl =>
    rw [h]
    refine ⟨fun f hf => ?_, fun _ => nofun⟩
    cases hf
    exact ⟨rfl, hrsp, hport, by rw [hhost, List.head?_cons]⟩
  all_goals
    rw [h]
    exact ⟨fun _ => nofun, fun _ => nofun⟩

/-- Settles O16: after reset there is no response. -/
theorem invariantHoldsAtReset : Obligations.InvariantHoldsAtReset :=
  ⟨fun _ => nofun, fun _ => nofun⟩

end Sys2Proof.Machine
end

section
/-! SUPPORT. Which errors a rule raises: all but the dispatch of DEC.RESPONSE raise with `errval` 0 (10_state.md R35). -/

namespace Sys2Proof.Machine

variable {α β : Type}

/-- An operation whose errors are none of them `UnknownCommunicationType`, and so carry `errval` 0. -/
def Op.raisesPlain (op : Op α) : Prop := ∀ k v, op = .error (.raise k v) → k ≠ .unknownCommunicationType ∧ v = 0

theorem Op.raisesPlain_ok (a : α) : Op.raisesPlain (.ok a : Op α) := by intro k v h; cases h
theorem Op.raisesPlain_raise {k : ErrKind} (hk : k ≠ .unknownCommunicationType) : Op.raisesPlain (raise k : Op α) := by
  intro k' v h
  cases h
  exact ⟨hk, rfl⟩

theorem Op.raisesPlain_check (p : Prop) [Decidable p] {k : ErrKind} (hk : k ≠ .unknownCommunicationType) :
    Op.raisesPlain (check p k) := by
  intro k' v h
  cases (check_eq_error.mp h).2
  exact ⟨hk, rfl⟩

theorem Op.raisesPlain_bind {x : Op α} {f : α → Op β} (hx : Op.raisesPlain x) (hf : ∀ a, Op.raisesPlain (f a)) :
    Op.raisesPlain (x >>= f) := by
  intro k v h
  obtain h | ⟨a, -, h⟩ := bind_eq_error.mp h
  · exact hx k v h
  · exact hf a k v h

/-- A read past the end is a fault of the model and no error of the block. -/
theorem Op.raisesPlain_memRead (b : Buffer) (addr n : Nat) : Op.raisesPlain (memRead b addr n) := by
  intro k v h
  unfold memRead at h
  split at h <;> cases h

theorem Op.raisesPlain_readByte (b : Buffer) (i : Nat) : Op.raisesPlain (readByte b i) := by
  intro k v h
  unfold readByte at h
  split at h <;> cases h

theorem roundHalfAway_raisesPlain (t : F32) : Op.raisesPlain (roundHalfAway t) := by
  intro k v h
  unfold roundHalfAway at h
  split at h <;> cases h

theorem hexDigit_raisesPlain (c : Byte) : Op.raisesPlain (hexDigit c) := by
  unfold hexDigit
  split
  · exact Op.raisesPlain_ok _
  · exact Op.raisesPlain_raise (by decide)

theorem hexDigits_raisesPlain (cs : Buffer) : Op.raisesPlain (hexDigits cs) := by
  intro k v h
  cases (hexDigits_eq_error.mp h).1
  exact ⟨by decide, rfl⟩

theorem decodeMarked_raisesPlain (input : Buffer) : Op.raisesPlain (decodeMarked input) := by
  refine Op.raisesPlain_bind (Op.raisesPlain_check _ (by decide)) fun _ => ?_
  refine Op.raisesPlain_bind (Op.raisesPlain_memRead _ _ _) fun _ => ?_
  refine Op.raisesPlain_bind (hexDigits_raisesPlain _) fun _ => ?_
  refine Op.raisesPlain_bind (Op.raisesPlain_check _ (by decide)) fun _ => ?_
  refine Op.raisesPlain_bind (Op.raisesPlain_readByte _ _) fun _ => ?_
  refine Op.raisesPlain_bind (hexDigit_raisesPlain _) fun _ => ?_
  refine Op.raisesPlain_bind (Op.raisesPlain_check _ (by decide)) fun _ => ?_
  refine Op.raisesPlain_bind (Op.raisesPlain_check _ (by decide)) fun _ => ?_
  refine Op.raisesPlain_bind (Op.raisesPlain_memRead _ _ _) fun _ => ?_
  exact Op.raisesPlain_bind (hexDigits_raisesPlain _) fun _ => Op.raisesPlain_ok _

theorem decodeByKind_raisesPlain (kind : Option FrameKind) (input : Buffer) : Op.raisesPlain (decodeByKind kind input) := by
  match kind with
  | some .extData => exact decodeMarked_raisesPlain input
  | some .stdData => exact Op.raisesPlain_raise (by decide)
  | some .extRemote => exact Op.raisesPlain_raise (by decide)
  | some .stdRemote => exact Op.raisesPlain_raise (by decide)
  | none => exact Op.raisesPlain_raise (by decide)

theorem frameDec_raisesPlain (input : Buffer) : Op.raisesPlain (frameDec input) :=
  Op.raisesPlain_bind (Op.raisesPlain_check _ (by decide)) fun _ =>
    Op.raisesPlain_bind (Op.raisesPlain_readByte _ _) fun _ => decodeByKind_raisesPlain _ _

/-- An operation that neither answers nor faults raises an error. -/
theorem Op.raises_of_ne_ok {op : Op α} (hc : Op.completes op) (hp : Op.raisesPlain op) (hne : ∀ a, op ≠ .ok a) :
    ∃ k, op = raise k := by
  match op with
  | .ok a => exact absurd rfl (hne a)
  | .error (.raise k v) =>
    obtain ⟨-, rfl⟩ := hp k v rfl
    exact ⟨k, rfl⟩
  | .error (.fault f) => exact absurd rfl (hc f)

end Sys2Proof.Machine
end

section
/-! SUPPORT. The last byte of a decoded line. -/

namespace Sys2Proof.Machine

/-- A decoded line ends in a hex character: its DLC digit, or the last digit of its data. -/
theorem isHex_of_decodeMarked_getLast? {input : Buffer} {f : DecodedFrame} {c : Byte} (h : decodeMarked input = .ok f)
    (hc : input.getLast? = some c) : isHex c = true := by
  obtain ⟨_, dlc, data, -, hdlc, hdata, -, -, hlen, -⟩ := decodeMarked_eq_ok.mp h
  simp only [FRAME_LEN, HDR_LEN] at hlen
  rw [← isSome_hexval]
  by_cases h10 : input.length = 10
  · rw [List.getLast?_eq_getElem?, h10] at hc
    rw [hc, Option.bind_some] at hdlc
    rw [hdlc, Option.isSome_some]
  · have hlast : (input.drop 10).getLast? = some c := by rw [List.getLast?_drop, if_neg (by omega), hc]
    have hmem := List.mem_map_of_mem (f := hexval) (List.mem_of_getLast? hlast)
    rw [hdata] at hmem
    obtain ⟨d, -, hd⟩ := List.mem_map.mp hmem
    rw [← hd, Option.isSome_some]

theorem frameDec_of_not_terminatorStripped {input : Buffer} (h : ¬ terminatorStripped input) : ∃ k, frameDec input = raise k := by
  refine Op.raises_of_ne_ok (frameDec_completes input) (frameDec_raisesPlain input) fun f hf => ?_
  have hex := isHex_of_decodeMarked_getLast? (frameDec_eq_ok.mp hf).2 (not_not.mp h)
  exact absurd hex (by decide)

theorem decResponse_of_not_terminatorStripped {input : Buffer} (h : ¬ terminatorStripped input) :
    ∃ k, decResponse input = raise k := by
  obtain ⟨k, hk⟩ := frameDec_of_not_terminatorStripped h
  by_cases hlen : input.length = RSP_LEN
  · exact ⟨k, by simp only [decResponse, check_pos hlen, ok_bind, hk, raise_bind]⟩
  · exact ⟨_, decResponse_length hlen⟩

/-- Settles O29: 0x0D is no hex character, and a decoded line ends in one. -/
theorem lineTerminatorIsNeverAccepted : Obligations.LineTerminatorIsNeverAccepted := by
  intro input s h
  obtain ⟨k, hk⟩ := frameDec_of_not_terminatorStripped h
  obtain ⟨k', hk'⟩ := decResponse_of_not_terminatorStripped h
  exact ⟨⟨k, by simp only [exec, execFrameDec, frameResult, hk, raise_bind, finish_raise]⟩,
    k', by simp only [exec, execDecResponse, hk', finish_raise]⟩

end Sys2Proof.Machine
end

section
/-! SUPPORT. The results of float arithmetic survive being written as a pattern and read back, so a finite one has a finite
pattern. -/

namespace Sys2Proof.Machine.F32

theorem fromBits32_bits32_zero : fromBits32 (bits32 (.fin false 0)) = .fin false 0 := by decide

/-- Whatever its operands, a sum is a NaN, an infinity, a rounded number or zero, each of which has a pattern. -/
theorem fromBits32_bits32_add (u v : F32) : fromBits32 (bits32 (add u v)) = add u v := by
  unfold add sum
  split
  · exact fromBits32_bits32_nan _ _
  · exact fromBits32_bits32_nan _ _
  · split_ifs
    · exact fromBits32_infPattern _
    · exact fromBits32_bits32_nan _ _
  · exact fromBits32_infPattern _
  · exact fromBits32_infPattern _
  · split_ifs
    · exact fromBits32_bits32_ofRat _ _ _
    · exact fromBits32_bits32_zero
    · exact fromBits32_bits32_ofRat _ _ _
    · exact fromBits32_bits32_ofRat _ _ _

end Sys2Proof.Machine.F32

namespace Sys2Proof.Machine

/-- Q.DEC's last operation is a sum, or for temperature a division of finite numbers. -/
theorem fromBits32_bits32_qDecode (q : Quantity) (raw : Half) : F32.fromBits32 (F32.bits32 (qDecode q raw)) = qDecode q raw := by
  by_cases hq : q = .temp
  · obtain ⟨x, hx, -⟩ := toF32_raw raw
    rw [hq, qDecode_temp, hx, toF32_10, F32.div_fin _ _ _ (by norm_num), F32.fromBits32_bits32_ofRat]
  · rw [qDecode_linear hq, F32.fromBits32_bits32_add]

theorem finitePattern_qDecode (q : Quantity) (raw : Half) : finitePattern (F32.bits32 (qDecode q raw)) := by
  obtain ⟨b, m, h⟩ := qDecode_finite q raw
  rw [finitePattern, fromBits32_bits32_qDecode, h]
  rfl

end Sys2Proof.Machine
end

section
/-! SUPPORT. Every rule ends in a legal response, and so every step keeps the invariant. -/

namespace Sys2Proof.Machine

variable {α : Type}

/-- A rule's result and its error are legal responses. -/
def Op.endsLegally (op : Op Result) : Prop :=
  (∀ v, op = .ok v → v.legal) ∧ ∀ k v, op = .error (.raise k v) → (Response.err k v).legal

theorem Response.legal_err_plain {k : ErrKind} (hk : k ≠ .unknownCommunicationType) : (Response.err k 0).legal := by
  simp [Response.legal, hk]

theorem Response.legal_err_unknownType {ct : BitVec 5} (h0 : ct ≠ CT_DEVICE_ID) (h2 : ct ≠ CT_STATUS) (h17 : ct ≠ CT_READ_PARAM) :
    (Response.err .unknownCommunicationType ct).legal := ⟨h0, h2, h17⟩

theorem Op.endsLegally_ok {v : Result} (h : v.legal) : Op.endsLegally (.ok v) :=
  ⟨fun _ e => by cases e; exact h, fun _ _ => nofun⟩

theorem Op.endsLegally_raise {k : ErrKind} {v : BitVec 5} (h : (Response.err k v).legal) : Op.endsLegally (raise k v) :=
  ⟨fun _ => nofun, fun _ _ e => by cases e; exact h⟩

/-- A sequence ends legally if its first part raises no error with an `errval` and its second part ends legally. -/
theorem Op.endsLegally_bind {x : Op α} {f : α → Op Result} (hx : Op.raisesPlain x)
    (hf : ∀ a, x = .ok a → Op.endsLegally (f a)) : Op.endsLegally (x >>= f) := by
  match x with
  | .ok a => exact hf a rfl
  | .error (.raise k v) =>
    obtain ⟨hk, rfl⟩ := hx k v rfl
    exact Op.endsLegally_raise (Response.legal_err_plain hk)
  | .error (.fault f) => exact ⟨fun _ => nofun, fun _ _ => nofun⟩

/-- The end of an operation that ends legally leaves a legal response. -/
theorem finish_legal {op : Op Result} (h : Op.endsLegally op) {s t : State} (ht : finish op s = .next t) :
    ∀ r, t.rsp = some r → r.legal := by
  obtain ⟨hok, herr⟩ := h
  obtain ⟨v, hop, e⟩ | ⟨k, v, hop, e⟩ | ⟨f, -, e⟩ := finish_cases op s <;> rw [e] at ht <;> cases ht <;> rintro r ⟨⟩
  · exact hok v hop
  · exact herr k v hop

/-! Rule by rule. -/

theorem frameText_legal (id : Word) (plen : BitVec 4) {bs : List Byte} (h : bs.length ≤ MAX_DLC) :
    (Result.bytes (frameText id plen bs)).legal := ⟨bs.length, h, frameText_length id plen bs, rfl⟩

theorem frameEnc_endsLegally (kind : FrameKind) (id : Word) (plen : BitVec 4) (payload : Bytes8) :
    Op.endsLegally (frameEnc kind id plen payload) := by
  obtain h | h | ⟨-, -, h⟩ := frameEnc_cases kind id plen payload <;> rw [h]
  · exact Op.endsLegally_raise (Response.legal_err_plain (by decide))
  · exact Op.endsLegally_raise (Response.legal_err_plain (by decide))
  · exact Op.endsLegally_ok (frameText_legal id plen (List.length_take_le' _ _))

theorem checkIds_raisesPlain (host motor : Byte) : Op.raisesPlain (checkIds host motor) :=
  Op.raisesPlain_check _ (by decide)

theorem command_endsLegally (ctype : BitVec 5) (host motor : Byte) (plen : BitVec 4) (payload : Bytes8) :
    Op.endsLegally (command ctype host motor plen payload) :=
  Op.endsLegally_bind (checkIds_raisesPlain host motor) fun _ _ => frameEnc_endsLegally _ _ _ _

/-! A packed identifier has its fields in their places (41_identifier_packer.md R151). -/

@[simp] theorem ctype_commandId (ctype : BitVec 5) (host motor : Byte) : CanId.ctype (commandId ctype host motor) = ctype := by
  apply BitVec.eq_of_toNat_eq
  rw [CanId.ctype, toNat_field, commandId_toNat]
  omega

@[simp] theorem mid_commandId (ctype : BitVec 5) (host motor : Byte) : CanId.mid (commandId ctype host motor) = 0 := by
  apply BitVec.eq_of_toNat_eq
  rw [CanId.mid, toNat_field, commandId_toNat, zero_toNat]
  omega

@[simp] theorem hi_commandId (ctype : BitVec 5) (host motor : Byte) : CanId.hi (commandId ctype host motor) = host := by
  apply BitVec.eq_of_toNat_eq
  rw [CanId.hi, toNat_field, commandId_toNat]
  omega

@[simp] theorem lo_commandId (ctype : BitVec 5) (host motor : Byte) : CanId.lo (commandId ctype host motor) = motor := by
  apply BitVec.eq_of_toNat_eq
  rw [CanId.lo, toNat_field, commandId_toNat]
  omega

theorem commandId_legal {ctype : BitVec 5} {host motor : Byte} (hids : idsLegal host motor) (htype : ctype.toNat ≤ CTYPE_MAX) :
    (Result.id (commandId ctype host motor)).legal := by
  obtain ⟨hhost, hmotor⟩ := hids
  simp [Result.legal, htype, hhost, hmotor]

theorem idPack_endsLegally (ctype : BitVec 5) (host motor : Byte) : Op.endsLegally (idPack ctype host motor) := by
  refine Op.endsLegally_bind (checkIds_raisesPlain host motor) fun _ hids => ?_
  refine Op.endsLegally_bind (Op.raisesPlain_check _ (by decide)) fun _ htype => ?_
  exact Op.endsLegally_ok (commandId_legal (check_eq_ok.mp hids) (check_eq_ok.mp htype))

theorem qEnc_endsLegally (q : Quantity) (value : Word) : Op.endsLegally (qEnc q value) := by
  refine Op.endsLegally_bind ?_ fun _ _ => Op.endsLegally_ok trivial
  exact Op.raisesPlain_bind (Op.raisesPlain_check _ (by decide)) fun _ =>
    Op.raisesPlain_bind (roundHalfAway_raisesPlain _) fun _ => Op.raisesPlain_ok _

/-- A decoded frame is within the limits of its variant under every marker: only the extended-data marker decodes at all. -/
theorem decodeByKind_legal {kind : Option FrameKind} {input : Buffer} {f : DecodedFrame}
    (h : decodeByKind kind input = .ok f) : f.result.legal := by
  have hmarked : decodeMarked input = .ok f := by
    unfold decodeByKind at h
    split at h
    · exact h
    all_goals cases h
  obtain ⟨hkind, hdlc, hpayload, -⟩ := decodeMarked_limits hmarked
  exact ⟨hkind, hdlc, hpayload⟩

theorem frameResult_decodeByKind_endsLegally (kind : Option FrameKind) (input : Buffer) :
    Op.endsLegally (frameResult (decodeByKind kind input)) :=
  Op.endsLegally_bind (decodeByKind_raisesPlain kind input) fun _ hf => Op.endsLegally_ok (decodeByKind_legal hf)

theorem frameResult_frameDec_endsLegally (input : Buffer) : Op.endsLegally (frameResult (frameDec input)) :=
  Op.endsLegally_bind (frameDec_raisesPlain input) fun _ hf =>
    Op.endsLegally_ok (decodeByKind_legal (kind := some .extData) (frameDec_eq_ok.mp hf).2)

theorem decodeFeedback_endsLegally (id : CanId) (p : Bytes8) : Op.endsLegally (decodeFeedback id p.toList) := by
  rw [decodeFeedback_full]
  exact Op.endsLegally_ok
    ⟨finitePattern_qDecode _ _, finitePattern_qDecode _ _, finitePattern_qDecode _ _, finitePattern_qDecode _ _⟩

theorem decodeParam_endsLegally (id : CanId) (p : Bytes8) : Op.endsLegally (decodeParam id p.toList) := by
  rw [decodeParam_full]
  exact Op.endsLegally_ok trivial

theorem dispatchReply_endsLegally (id : CanId) (p : Bytes8) : Op.endsLegally (dispatchReply id p.toList) := by
  obtain ⟨-, h⟩ | ⟨-, h⟩ | ⟨-, h⟩ | ⟨h2, h17, h0, h⟩ := dispatchReply_cases id p <;> rw [h]
  · exact decodeFeedback_endsLegally id p
  · exact decodeParam_endsLegally id p
  · exact Op.endsLegally_raise (Response.legal_err_plain (by decide))
  · exact Op.endsLegally_raise (Response.legal_err_unknownType h0 h2 h17)

theorem decResponse_endsLegally (input : Buffer) : Op.endsLegally (decResponse input) := by
  refine Op.endsLegally_bind (Op.raisesPlain_check _ (by decide)) fun _ hlen => ?_
  refine Op.endsLegally_bind (frameDec_raisesPlain input) fun f hf => ?_
  refine Op.endsLegally_bind (Op.raisesPlain_check _ (by decide)) fun _ _ => ?_
  obtain ⟨-, p, hp⟩ := full_of_length (check_eq_ok.mp hlen) hf
  rw [hp]
  exact dispatchReply_endsLegally f.id p

/-! The machine. -/

/-- Every instruction is the end of a rule that ends legally. -/
theorem exec_endsLegally (i : Instr) : ∃ op, Op.endsLegally op ∧ exec i = finish op := by
  cases i with
  | frameEnc kind id plen payload => exact ⟨_, frameEnc_endsLegally kind id plen payload, rfl⟩
  | frameDec input => exact ⟨_, frameResult_frameDec_endsLegally input, rfl⟩
  | idPack ctype host motor => exact ⟨_, idPack_endsLegally ctype host motor, rfl⟩
  | idUnpack id => exact ⟨idUnpack id, Op.endsLegally_ok trivial, rfl⟩
  | qDec q raw => exact ⟨qDec q raw, Op.endsLegally_ok (finitePattern_qDecode q raw), rfl⟩
  | qEnc q value => exact ⟨_, qEnc_endsLegally q value, rfl⟩
  | encEnable host motor => exact ⟨_, command_endsLegally _ host motor _ _, rfl⟩
  | encDisable host motor => exact ⟨_, command_endsLegally _ host motor _ _, rfl⟩
  | encRunMode host motor mode => exact ⟨_, command_endsLegally _ host motor _ _, rfl⟩
  | encWriteFloat host motor index value => exact ⟨_, command_endsLegally _ host motor _ _, rfl⟩
  | decResponse input => exact ⟨_, decResponse_endsLegally input, rfl⟩
  | markExtData rest => exact ⟨_, frameResult_decodeByKind_endsLegally (some .extData) (FrameKind.extData.markByte :: rest), rfl⟩
  | markStdData rest => exact ⟨_, frameResult_decodeByKind_endsLegally (some .stdData) (FrameKind.stdData.markByte :: rest), rfl⟩
  | markExtRemote rest => exact ⟨_, frameResult_decodeByKind_endsLegally (some .extRemote) (FrameKind.extRemote.markByte :: rest), rfl⟩
  | markStdRemote rest => exact ⟨_, frameResult_decodeByKind_endsLegally (some .stdRemote) (FrameKind.stdRemote.markByte :: rest), rfl⟩
  | ct3Enable host motor => exact ⟨_, command_endsLegally _ host motor _ _, rfl⟩
  | ct4Disable host motor => exact ⟨_, command_endsLegally _ host motor _ _, rfl⟩
  | ct18WriteParam host motor index value => exact ⟨_, command_endsLegally _ host motor _ _, rfl⟩
  | ct2StatusReport mode faults motor host payload => exact ⟨_, decodeFeedback_endsLegally _ payload, rfl⟩
  | ct17ReadParam mid motor host payload => exact ⟨_, decodeParam_endsLegally _ payload, rfl⟩
  | ct0DeviceId low payload => exact ⟨_, dispatchReply_endsLegally _ payload, rfl⟩

/-- A choice that answers under its condition can only fail where the condition fails. -/
theorem error_of_ite_ok {c : Prop} [Decidable c] {a : Instr} {x : Except DecodeError Instr} {e : DecodeError}
    (h : (if c then .ok a else x) = .error e) : x = .error e := by
  by_cases hc : c
  · rw [if_pos hc] at h
    cases h
  · rwa [if_neg hc] at h

/-- A request that selects no operation has an undefined operation select code (30_encoding.md R101). -/
theorem decodeRequest_eq_error {r : Request} {e : DecodeError} (h : decodeRequest r = .error e) :
    e = .illegalOperation r.opsel := by
  unfold decodeRequest at h
  iterate 11 replace h := error_of_ite_ok h
  exact (Except.error.inj h).symm

theorem decodeLine_ne_noCommunicationType (bytes : Buffer) (ct : BitVec 5) :
    decodeLine bytes ≠ .error (.noCommunicationType ct) := by
  intro h
  unfold decodeLine at h
  split at h
  · cases h
  · split at h <;> cases h

/-- A type without a row is none of the three that DEC.RESPONSE decodes. -/
theorem decodeCanFrame_noCommunicationType {id : Word} {p : Bytes8} {ct : BitVec 5}
    (h : decodeCanFrame id p = .error (.noCommunicationType ct)) : ct ≠ CT_DEVICE_ID ∧ ct ≠ CT_STATUS ∧ ct ≠ CT_READ_PARAM := by
  unfold decodeCanFrame at h
  dsimp only at h
  split_ifs at h with _ _ _ _ h2 h17 h0
  · cases h
  · cases h
    exact ⟨h0, h2, h17⟩

/-- Only a CAN frame is refused for its type. -/
theorem decode_noCommunicationType {p : Presented} {ct : BitVec 5} (h : decode p = .error (.noCommunicationType ct)) :
    ct ≠ CT_DEVICE_ID ∧ ct ≠ CT_STATUS ∧ ct ≠ CT_READ_PARAM := by
  cases p with
  | request r => exact nomatch decodeRequest_eq_error h
  | line bytes => exact absurd h (decodeLine_ne_noCommunicationType bytes ct)
  | canFrame id payload => exact decodeCanFrame_noCommunicationType h

theorem State.takeError_legal {k : ErrKind} {v : BitVec 5} (h : (Response.err k v).legal) (s : State) :
    ∀ r, (s.takeError k v).rsp = some r → r.legal := by
  rintro r ⟨⟩
  exact h

/-- The block answers what stands at its input with a legal response. -/
theorem perform_legal {p : Presented} {s t : State} (ht : perform p s = .next t) : ∀ r, t.rsp = some r → r.legal := by
  cases hdecode : decode p with
  | ok i =>
    obtain ⟨op, hop, hexec⟩ := exec_endsLegally i
    rw [perform_decoded hdecode, hexec] at ht
    exact finish_legal hop ht
  | error e =>
    rw [perform_undecoded hdecode] at ht
    cases ht
    cases e with
    | illegalOperation opsel => exact State.takeError_legal (Response.legal_err_plain (by decide)) s
    | emptyLine => exact State.takeError_legal (Response.legal_err_plain (by decide)) s
    | noFrameKind first => exact State.takeError_legal (Response.legal_err_plain (by decide)) s
    | identifierTooWide id => exact State.takeError_legal (Response.legal_err_plain (by decide)) s
    | noCommunicationType ct =>
      obtain ⟨h0, h2, h17⟩ := decode_noCommunicationType hdecode
      exact State.takeError_legal (Response.legal_err_unknownType h0 h2 h17) s

/-- Settles O17: the block's answer is legal, and a response that the host takes was legal while `RSP` held it. -/
theorem everyStepKeepsResponsesLegal : Obligations.EveryStepKeepsResponsesLegal := by
  rintro s t ⟨hrsp, hobserved⟩ ht
  obtain ⟨_, -, h⟩ | ⟨p, _, hport, hreset, h⟩ | ⟨_, _, -, -, h⟩ | ⟨r, _, -, -, hr, h⟩ | ⟨_, -, -, -, h⟩ | ⟨-, -, h⟩ :=
    step_cases s <;> rw [h] at ht <;> cases ht
  case inl => exact ⟨fun _ => nofun, hobserved⟩
  case inr.inl => exact ⟨perform_legal ((step_block hport hreset).symm.trans h), hobserved⟩
  case inr.inr.inr.inl =>
    refine ⟨hrsp, fun r' hmem => ?_⟩
    obtain hold | hnew := List.mem_append.mp hmem
    · exact hobserved r' hold
    · rw [List.mem_singleton.mp hnew]
      exact hrsp r hr
  all_goals exact ⟨hrsp, hobserved⟩

end Sys2Proof.Machine
end

section
/-! SUPPORT. The round trip of an instruction, and the decoder on lines and on CAN frames. -/

namespace Sys2Proof.Machine

/-- Settles O2, row by row. -/
theorem decodeInvertsEncode : Obligations.DecodeInvertsEncode := by
  intro i
  cases i with
  | frameEnc kind id plen payload => exact Laws.RoundTrip.frameEnc kind id plen payload
  | frameDec input => exact Laws.RoundTrip.frameDec input
  | idPack ctype host motor => exact Laws.RoundTrip.idPack ctype host motor
  | idUnpack id => exact Laws.RoundTrip.idUnpack id
  | qDec q raw => exact Laws.RoundTrip.qDec q raw
  | qEnc q value => exact Laws.RoundTrip.qEnc q value
  | encEnable host motor => exact Laws.RoundTrip.encEnable host motor
  | encDisable host motor => exact Laws.RoundTrip.encDisable host motor
  | encRunMode host motor mode => exact Laws.RoundTrip.encRunMode host motor mode
  | encWriteFloat host motor index value => exact Laws.RoundTrip.encWriteFloat host motor index value
  | decResponse input => exact Laws.RoundTrip.decResponse input
  | markExtData rest => exact Laws.RoundTrip.markExtData rest
  | markStdData rest => exact Laws.RoundTrip.markStdData rest
  | markExtRemote rest => exact Laws.RoundTrip.markExtRemote rest
  | markStdRemote rest => exact Laws.RoundTrip.markStdRemote rest
  | ct3Enable host motor => exact Laws.RoundTrip.ct3Enable host motor
  | ct4Disable host motor => exact Laws.RoundTrip.ct4Disable host motor
  | ct18WriteParam host motor index value => exact Laws.RoundTrip.ct18WriteParam host motor index value
  | ct2StatusReport mode faults motor host payload => exact Laws.RoundTrip.ct2StatusReport mode faults motor host payload
  | ct17ReadParam mid motor host payload => exact Laws.RoundTrip.ct17ReadParam mid motor host payload
  | ct0DeviceId low payload => exact Laws.RoundTrip.ct0DeviceId low payload

/-- A record that some instruction encodes to decodes to that instruction. -/
theorem decode_of_encode {i : Instr} {p : Presented} (h : encode i = p) : decode p = .ok i := by
  rw [← h]
  exact decodeInvertsEncode i

/-- What a record decodes to encodes back to it, if anything encodes to it. -/
theorem encode_of_decode {i j : Instr} {p : Presented} (hi : decode p = .ok i) (hj : encode j = p) : encode i = p := by
  rw [decode_of_encode hj, Except.ok.injEq] at hi
  rwa [← hi]

/-! Lines (40_slcan_frame_codec.md R131). -/

/-- Every marker has a row, with the rest of the line as its operand. -/
theorem exists_encode_line (k : FrameKind) (rest : Buffer) : ∃ j, encode j = .line (k.markByte :: rest) := by
  cases k with
  | extData => exact ⟨.markExtData rest, rfl⟩
  | stdData => exact ⟨.markStdData rest, rfl⟩
  | extRemote => exact ⟨.markExtRemote rest, rfl⟩
  | stdRemote => exact ⟨.markStdRemote rest, rfl⟩

/-- A line that spells a row starts with a marker. -/
theorem exists_markByte_of_decode {bytes : Buffer} {i : Instr} (h : decode (.line bytes) = .ok i) :
    ∃ (k : FrameKind) (rest : Buffer), bytes = k.markByte :: rest := by
  cases bytes with
  | nil => cases h
  | cons m rest =>
    cases hm : marker m with
    | some k => exact ⟨k, rest, by rw [marker_eq_some.mp hm]⟩
    | none =>
      simp only [decode, decodeLine, hm] at h
      cases h

/-! Identifiers and their fields (30_encoding.md R83, R84). -/

theorem replyWord_toNat_div (ctype : BitVec 5) (mid motor host : Byte) :
    (replyWord ctype mid motor host).toNat / 2 ^ 24 = ctype.toNat := by
  rw [replyWord_toNat]
  omega

theorem ofNat_eq_replyWord {ct mid hi lo : Nat} (hct : ct < 32) (hmid : mid < 256) (hhi : hi < 256) (hlo : lo < 256) :
    BitVec.ofNat 32 (ct * 2 ^ 24 + mid * 2 ^ 16 + hi * 2 ^ 8 + lo) =
      replyWord (BitVec.ofNat 5 ct) (BitVec.ofNat 8 mid) (BitVec.ofNat 8 hi) (BitVec.ofNat 8 lo) := by
  apply BitVec.eq_of_toNat_eq
  rw [replyWord_toNat]
  simp only [BitVec.toNat_ofNat]
  omega

/-- An identifier of 29 bits is its four fields. -/
theorem exists_replyWord {w : Word} (h : w.toNat < 2 ^ 29) : ∃ ctype mid hi lo, w = replyWord ctype mid hi lo := by
  refine ⟨w.extractLsb' 24 5, w.extractLsb' 16 8, w.extractLsb' 8 8, w.extractLsb' 0 8, BitVec.eq_of_toNat_eq ?_⟩
  simp only [replyWord_toNat, toNat_field]
  omega

/-- A field of a word, by its number. -/
theorem extractLsb'_eq_of_toNat {n start len : Nat} {x : BitVec n} {y : BitVec len} (h : x.toNat / 2 ^ start % 2 ^ len = y.toNat) :
    x.extractLsb' start len = y :=
  BitVec.eq_of_toNat_eq ((toNat_field x start len).trans h)

theorem eq_of_ofNat_eq {n a b : Nat} (ha : a < 2 ^ n) (hb : b < 2 ^ n) (h : BitVec.ofNat n a = BitVec.ofNat n b) : a = b := by
  rw [← BitVec.toNat_inj, BitVec.toNat_ofNat, BitVec.toNat_ofNat, Nat.mod_eq_of_lt ha, Nat.mod_eq_of_lt hb] at h
  exact h

/-! The frames of the communication-type rows, from the bytes of the frame (30_encoding.md R83, R84, R85). -/

theorem exists_encode_writeParam (host motor b0 b1 b4 b5 b6 b7 : Byte) :
    ∃ index value, encode (.ct18WriteParam host motor index value) =
        .canFrame (replyWord 18 0 host motor) ⟨b0, b1, 0, 0, b4, b5, b6, b7⟩ ∧
      index.toNat = b0.toNat + 2 ^ 8 * b1.toNat ∧
      value.toNat = b4.toNat + 2 ^ 8 * b5.toNat + 2 ^ 16 * b6.toNat + 2 ^ 24 * b7.toNat := by
  have hindex := halfLE_toNat b0 b1
  obtain ⟨value, hvalue⟩ : ∃ value : Word,
      value.toNat = b4.toNat + 2 ^ 8 * b5.toNat + 2 ^ 16 * b6.toNat + 2 ^ 24 * b7.toNat :=
    ⟨_, BitVec.toNat_ofNatLT (w := 32) _ (by omega)⟩
  refine ⟨halfLE b0 b1, value, ?_, hindex, hvalue⟩
  simp only [encode, commandWord_eq, Presented.canFrame.injEq, Bytes8.mk.injEq, true_and]
  refine ⟨?_, ?_, ?_, ?_, ?_, ?_⟩ <;> apply extractLsb'_eq_of_toNat <;> omega

theorem encode_statusReport (mid motor host : Byte) (p : Bytes8) :
    encode (.ct2StatusReport (mid.extractLsb' 6 2) (mid.extractLsb' 0 6) motor host p) =
      .canFrame (replyWord 2 mid motor host) p := by
  have hmid : mid.extractLsb' 6 2 ++ mid.extractLsb' 0 6 = mid :=
    (BitVec.extractLsb'_append_extractLsb'_eq_extractLsb' rfl).trans BitVec.extractLsb'_eq_self
  simp only [encode, hmid]

theorem encode_readParam (mid motor host : Byte) (p : Bytes8) :
    encode (.ct17ReadParam mid motor host p) = .canFrame (replyWord 17 mid motor host) p := rfl

theorem exists_encode_deviceId (mid hi lo : Byte) (p : Bytes8) :
    ∃ low, encode (.ct0DeviceId low p) = .canFrame (replyWord 0 mid hi lo) p ∧
      low.toNat = mid.toNat * 2 ^ 16 + hi.toNat * 2 ^ 8 + lo.toNat := by
  obtain ⟨low, hlow⟩ : ∃ low : BitVec 24, low.toNat = mid.toNat * 2 ^ 16 + hi.toNat * 2 ^ 8 + lo.toNat :=
    ⟨_, BitVec.toNat_ofNatLT (w := 24) _ (by omega)⟩
  refine ⟨low, congrArg (Presented.canFrame · p) (BitVec.eq_of_toNat_eq ?_), hlow⟩
  refine (toNat_append_eq (0 : BitVec 8) low).trans ?_
  rw [replyWord_toNat, zero_toNat, zero_toNat, hlow]
  omega

/-! The decoder on the fields of an identifier, where the frame is not the one that the row encodes to
(30_encoding.md R83, R84, R103). -/

theorem decode_enable (host motor : Byte) (p : Bytes8) :
    decode (.canFrame (replyWord 3 0 host motor) p) = .ok (.ct3Enable host motor) := by
  simp [decode, decodeCanFrame, replyWord_wide, replyWord_ctype, replyWord_mid, replyWord_motor, replyWord_host]

theorem decode_disable (host motor : Byte) (p : Bytes8) :
    decode (.canFrame (replyWord 4 0 host motor) p) = .ok (.ct4Disable host motor) := by
  simp [decode, decodeCanFrame, replyWord_wide, replyWord_ctype, replyWord_mid, replyWord_motor, replyWord_host]

theorem decode_noRow {ctype : BitVec 5} {mid hi lo : Byte} {p : Bytes8} (h3 : ¬ (ctype = 3 ∧ mid = 0))
    (h4 : ¬ (ctype = 4 ∧ mid = 0)) (h18 : ¬ (ctype = 18 ∧ mid = 0 ∧ p.b2 = 0 ∧ p.b3 = 0)) (h2 : ctype ≠ 2)
    (h17 : ctype ≠ 17) (h0 : ctype ≠ 0) :
    decode (.canFrame (replyWord ctype mid hi lo) p) = .error (.noCommunicationType ctype) := by
  simp only [decode, decodeCanFrame, replyWord_wide, replyWord_ctype, replyWord_mid, ne_eq, not_true_eq_false, if_false,
    if_neg h3, if_neg h4, if_neg h18, if_neg h2, if_neg h17, if_neg h0]

theorem decode_tooWide {w : Word} (h : 2 ^ 29 ≤ w.toNat) (p : Bytes8) :
    decode (.canFrame w p) = .error (.identifierTooWide w) := by
  have hw := w.isLt
  refine if_pos fun hfield => ?_
  rw [← BitVec.toNat_inj, toNat_field, zero_toNat] at hfield
  omega

/-- A CAN frame of a type other than 3 and 4 that decodes is the encoding of a row: its payload is that of type 18, or an
operand. -/
theorem exists_encode_canFrame {ctype : BitVec 5} {mid hi lo : Byte} {p : Bytes8} {i : Instr}
    (h : decode (.canFrame (replyWord ctype mid hi lo) p) = .ok i) (h3 : ctype ≠ 3) (h4 : ctype ≠ 4) :
    ∃ j, encode j = .canFrame (replyWord ctype mid hi lo) p := by
  by_cases h18 : ctype = 18 ∧ mid = 0 ∧ p.b2 = 0 ∧ p.b3 = 0
  · obtain ⟨b0, b1, b2, b3, b4, b5, b6, b7⟩ := p
    obtain ⟨rfl, rfl, rfl, rfl⟩ := h18
    obtain ⟨index, value, hencode, -⟩ := exists_encode_writeParam hi lo b0 b1 b4 b5 b6 b7
    exact ⟨_, hencode⟩
  by_cases h2 : ctype = 2
  · exact ⟨_, h2 ▸ encode_statusReport mid hi lo p⟩
  by_cases h17 : ctype = 17
  · exact ⟨_, h17 ▸ encode_readParam mid hi lo p⟩
  by_cases h0 : ctype = 0
  · obtain ⟨low, hencode, -⟩ := exists_encode_deviceId mid hi lo p
    exact ⟨_, h0 ▸ hencode⟩
  rw [decode_noRow (fun h => h3 h.1) (fun h => h4 h.1) h18 h2 h17 h0] at h
  cases h

/-- Settles O3: what decodes is the encoding of some row, and so of the row it decodes to. -/
theorem wireWordsHaveOneEncoding : Obligations.WireWordsHaveOneEncoding := by
  refine ⟨fun bytes i hdecode => ?_, fun w p i hdecode h3 h4 => ?_⟩
  · obtain ⟨k, rest, rfl⟩ := exists_markByte_of_decode hdecode
    obtain ⟨j, hj⟩ := exists_encode_line k rest
    exact encode_of_decode hdecode hj
  · have hw : w.toNat < 2 ^ 29 := by
      by_contra hw
      rw [decode_tooWide (not_lt.mp hw)] at hdecode
      cases hdecode
    obtain ⟨ctype, mid, hi, lo, rfl⟩ := exists_replyWord hw
    rw [replyWord_toNat_div] at h3 h4
    obtain ⟨j, hj⟩ := exists_encode_canFrame hdecode (fun h => h3 (congrArg BitVec.toNat h)) fun h => h4 (congrArg BitVec.toNat h)
    exact encode_of_decode hdecode hj

/-! The answer to a record that spells no row. -/

/-- A record that spells no row is answered for its decode error, unless a reset comes first. -/
theorem step_undecoded {s : State} {p : Presented} {e : DecodeError} (hdecode : decode p = .error e) (hp : s.port = some p)
    (hreset : s.host.head? ≠ some .reset) : step s = .next (answerUndecoded e { s with port := none }) :=
  (step_block hp hreset).trans (perform_undecoded hdecode _)

/-- A frame that selects no row is answered with its type: a command whose reserved zeros are broken, and every frame whose
type is neither a command's nor a reply's. -/
theorem refused_of_noRow {ct mid : Nat} (hct : ct < 32) (hmid : mid < 256) (hi lo : Byte) {p : Bytes8}
    (hcommand : ct ∈ [3, 4, 18] → mid ≠ 0 ∨ ct = 18 ∧ (p.b2 ≠ 0 ∨ p.b3 ≠ 0)) (hreply : ct ∉ [0, 2, 17]) :
    decode (.canFrame (replyWord (.ofNat 5 ct) (.ofNat 8 mid) hi lo) p) = .error (.noCommunicationType (.ofNat 5 ct)) ∧
    ∀ s : State, s.port = some (.canFrame (replyWord (.ofNat 5 ct) (.ofNat 8 mid) hi lo) p) → s.host.head? ≠ some .reset →
      step s = .next { s with port := none, rsp := some (.err .unknownCommunicationType (.ofNat 5 ct)) } := by
  have htype : ∀ c < 32, BitVec.ofNat 5 ct = BitVec.ofNat 5 c → ct = c := fun c hc => eq_of_ofNat_eq hct hc
  have hzero : BitVec.ofNat 8 mid = BitVec.ofNat 8 0 → mid = 0 := eq_of_ofNat_eq hmid (by decide)
  simp only [List.mem_cons, List.not_mem_nil, or_false, not_or] at hcommand hreply
  obtain ⟨h0, h2, h17⟩ := hreply
  have hdecode : decode (.canFrame (replyWord (.ofNat 5 ct) (.ofNat 8 mid) hi lo) p) =
      .error (.noCommunicationType (.ofNat 5 ct)) := by
    refine decode_noRow ?_ ?_ ?_ (h2 ∘ htype 2 (by decide)) (h17 ∘ htype 17 (by decide)) (h0 ∘ htype 0 (by decide))
    · rintro ⟨h, hm⟩
      have := htype 3 (by decide) h
      have := hzero hm
      omega
    · rintro ⟨h, hm⟩
      have := htype 4 (by decide) h
      have := hzero hm
      omega
    · rintro ⟨h, hm, hb2, hb3⟩
      obtain hmid0 | ⟨-, hb | hb⟩ := hcommand (.inr (.inr (htype 18 (by decide) h)))
      · exact hmid0 (hzero hm)
      · exact hb hb2
      · exact hb hb3
  exact ⟨hdecode, fun s hp hreset => step_undecoded hdecode hp hreset⟩

/-- Settles O5: the rows with their own payload decode as they encode, and the answer to the other frames is that of their
decode error. -/
theorem identifierSelectsItsRow : Obligations.IdentifierSelectsItsRow := by
  refine ⟨fun ct mid hi lo p hct hmid hhi hlo => ?_, fun w p hw =>
    ⟨decode_tooWide hw p, fun s hp hreset => step_undecoded (decode_tooWide hw p) hp hreset⟩⟩
  dsimp only
  rw [ofNat_eq_replyWord hct hmid hhi hlo]
  refine ⟨?_, ?_, ?_, ?_, ?_, ?_, ?_, ?_, ?_⟩
  · rintro rfl rfl
    exact decode_enable _ _ p
  · rintro rfl rfl
    exact decode_disable _ _ p
  · rintro rfl rfl h2 h3
    obtain ⟨b0, b1, b2, b3, b4, b5, b6, b7⟩ := p
    obtain rfl : b2 = 0 := h2
    obtain rfl : b3 = 0 := h3
    obtain ⟨index, value, hencode, hbytes⟩ := exists_encode_writeParam (.ofNat 8 hi) (.ofNat 8 lo) b0 b1 b4 b5 b6 b7
    exact ⟨index, value, decode_of_encode hencode, hbytes⟩
  · rintro rfl
    have hmode : (BitVec.ofNat 8 mid).extractLsb' 6 2 = BitVec.ofNat 2 (mid / 64) := extractLsb'_eq_of_toNat (by
      simp only [BitVec.toNat_ofNat]
      omega)
    have hfaults : (BitVec.ofNat 8 mid).extractLsb' 0 6 = BitVec.ofNat 6 (mid % 64) := extractLsb'_eq_of_toNat (by
      simp only [BitVec.toNat_ofNat]
      omega)
    rw [← hmode, ← hfaults]
    exact decode_of_encode (encode_statusReport _ _ _ p)
  · rintro rfl
    exact decode_of_encode (encode_readParam _ _ _ p)
  · rintro rfl
    obtain ⟨low, hencode, hlow⟩ := exists_encode_deviceId (.ofNat 8 mid) (.ofNat 8 hi) (.ofNat 8 lo) p
    refine ⟨low, decode_of_encode hencode, ?_⟩
    rw [hlow]
    simp only [BitVec.toNat_ofNat]
    omega
  · intro hcommand hmid0
    have hreply : ∀ c ∈ [3, 4, 18], c ∉ [0, 2, 17] := by decide
    exact refused_of_noRow hct hmid _ _ (fun _ => .inl hmid0) (hreply ct hcommand)
  · rintro rfl hpayload
    exact refused_of_noRow hct hmid _ _ (fun _ => .inr ⟨rfl, hpayload⟩) (by decide)
  · intro hnone
    have hcommand : [3, 4, 18] ⊆ [0, 2, 3, 4, 17, 18] := by decide
    have hreply : [0, 2, 17] ⊆ [0, 2, 3, 4, 17, 18] := by decide
    exact refused_of_noRow hct hmid _ _ (fun h => absurd (hcommand h) hnone) fun h => hnone (hreply h)

end Sys2Proof.Machine
end

section
/-! SUPPORT. The decoder on requests, code by code (30_encoding.md R100, R101). -/

namespace Sys2Proof.Machine

variable {r : Request}

theorem decode_frameEnc (h : r.opsel = 0x01) :
    decode (.request r) = .ok (.frameEnc (FrameKind.ofCode r.kind) r.id r.plen r.payload) := by
  simp [decode, decodeRequest, h]

theorem decode_frameDec (h : r.opsel = 0x02) : decode (.request r) = .ok (.frameDec r.input) := by
  simp [decode, decodeRequest, h]

theorem decode_idPack (h : r.opsel = 0x03) : decode (.request r) = .ok (.idPack r.ctype r.host r.motor) := by
  simp [decode, decodeRequest, h]

theorem decode_idUnpack (h : r.opsel = 0x04) : decode (.request r) = .ok (.idUnpack r.canId) := by
  simp [decode, decodeRequest, h]

theorem decode_qDec (h : r.opsel = 0x05) : decode (.request r) = .ok (.qDec (Quantity.ofCode r.q) r.raw) := by
  simp [decode, decodeRequest, h]

theorem decode_qEnc (h : r.opsel = 0x06) : decode (.request r) = .ok (.qEnc (Quantity.ofCode r.q) r.value) := by
  simp [decode, decodeRequest, h]

theorem decode_encEnable (h : r.opsel = 0x10) : decode (.request r) = .ok (.encEnable r.host r.motor) := by
  simp [decode, decodeRequest, h]

theorem decode_encDisable (h : r.opsel = 0x11) : decode (.request r) = .ok (.encDisable r.host r.motor) := by
  simp [decode, decodeRequest, h]

theorem decode_encRunMode (h : r.opsel = 0x12) :
    decode (.request r) = .ok (.encRunMode r.host r.motor (RunMode.ofCode r.mode)) := by
  simp [decode, decodeRequest, h]

theorem decode_encWriteFloat (h : r.opsel = 0x13) :
    decode (.request r) = .ok (.encWriteFloat r.host r.motor r.index r.value) := by
  simp [decode, decodeRequest, h]

theorem decode_decResponse (h : r.opsel = 0x20) : decode (.request r) = .ok (.decResponse r.input) := by
  simp [decode, decodeRequest, h]

theorem decode_undefinedOpsel
    (h : r.opsel.toNat ∉ [0x01, 0x02, 0x03, 0x04, 0x05, 0x06, 0x10, 0x11, 0x12, 0x13, 0x20]) :
    decode (.request r) = .error (.illegalOperation r.opsel) := by
  have hne : ∀ c : Byte, c.toNat ∈ [0x01, 0x02, 0x03, 0x04, 0x05, 0x06, 0x10, 0x11, 0x12, 0x13, 0x20] → r.opsel ≠ c := by
    rintro c hc rfl
    exact h hc
  simp (disch := decide) only [decode, decodeRequest, hne, if_false]

/-! The tables of the three enumerations (10_state.md R39, R40, R42). -/

theorem frameKind_table : ∀ row ∈ [((0 : BitVec 2), FrameKind.extData), (1, .stdData), (2, .extRemote), (3, .stdRemote)],
    FrameKind.ofCode row.1 = row.2 := by decide

theorem quantity_table : ∀ row ∈ [((0 : BitVec 2), Quantity.angle), (1, .speed), (2, .torque), (3, .temp)],
    Quantity.ofCode row.1 = row.2 := by decide

theorem runMode_table : ∀ row ∈ [((0 : BitVec 2), RunMode.operationControl), (1, .position), (2, .speed), (3, .current)],
    RunMode.ofCode row.1 = row.2 := by decide

/-- Settles O1: each code selects its operation, whose enumerated operand its table gives. -/
theorem specWordsDecodeToTheirRows : Obligations.SpecWordsDecodeToTheirRows := by
  refine ⟨fun r => ⟨?_, decode_frameDec, decode_idPack, decode_idUnpack, ?_, decode_encEnable, decode_encDisable, ?_,
    decode_encWriteFloat, decode_decResponse⟩, rfl, rfl, rfl, rfl, rfl, rfl, rfl, rfl, rfl, rfl⟩
  · intro row hrow hkind hopsel
    rw [decode_frameEnc hopsel, hkind, frameKind_table row hrow]
  · intro row hrow hq
    refine ⟨fun hopsel => ?_, fun hopsel => ?_⟩
    · rw [decode_qDec hopsel, hq, quantity_table row hrow]
    · rw [decode_qEnc hopsel, hq, quantity_table row hrow]
  · intro row hrow hmode hopsel
    rw [decode_encRunMode hopsel, hmode, runMode_table row hrow]

/-- Settles O4: no code of the decoder's is the request's. -/
theorem undefinedOpselIsIllegalOperation : Obligations.UndefinedOpselIsIllegalOperation :=
  fun _ _ hp hreset hopsel => step_undecoded (decode_undefinedOpsel hopsel) hp hreset

end Sys2Proof.Machine
end

section
/-! SUPPORT. The end of a command, and the rows that draw one (42_command_encoder.md R172). -/

namespace Sys2Proof.Machine

theorem finish_command_legal {host motor : Byte} (h : idsLegal host motor) (ctype : BitVec 5) {plen : BitVec 4}
    (hp : plen.toNat ≤ MAX_DLC) (payload : Bytes8) (s : State) :
    ∃ out, finish (command ctype host motor plen payload) s = .next { s with rsp := some (.ok (.bytes out)) } :=
  ⟨_, by rw [command_legal h ctype hp, finish_ok]⟩

theorem finish_command_outOfRange {host motor : Byte} (h : ¬ idsLegal host motor) (ctype : BitVec 5) (plen : BitVec 4)
    (payload : Bytes8) (s : State) :
    finish (command ctype host motor plen payload) s = .next { s with rsp := some (.err .idOutOfRange 0) } := by
  rw [command_outOfRange h, finish_raise]

/-- Settles O37: a row and the operation that emits it are the end of the same command. -/
theorem commandRowsDrawTheirCommandsFrames : Obligations.CommandRowsDrawTheirCommandsFrames := by
  intro host motor index value s
  refine ⟨fun hhost hmotor => ?_, fun h => ?_⟩
  · have hlegal : idsLegal host motor := ⟨hhost, hmotor⟩
    obtain ⟨enable, henable⟩ := finish_command_legal hlegal 3 (plen := 0) (by decide) Bytes8.zero s
    obtain ⟨disable, hdisable⟩ := finish_command_legal hlegal 4 (plen := 0) (by decide) Bytes8.zero s
    obtain ⟨write, hwrite⟩ := finish_command_legal hlegal 18 (plen := 8) (by decide) (floatPayload index value) s
    exact ⟨⟨enable, henable, henable⟩, ⟨disable, hdisable, hdisable⟩, write, hwrite, hwrite⟩
  · have hillegal : ¬ idsLegal host motor := by
      simp only [idsLegal, ID_MAX]
      omega
    exact ⟨finish_command_outOfRange hillegal _ _ _ s, finish_command_outOfRange hillegal _ _ _ s,
      finish_command_outOfRange hillegal _ _ _ s⟩

end Sys2Proof.Machine
end

section
/-! SUPPORT. The two pseudo-operations (30_encoding.md R105). -/

namespace Sys2Proof.Machine

theorem parseField_speedRefIndex : parseField 16 "0x700A".toList = some IDX_SPD_REF := by decide
theorem parseMode_speed : parseMode "SPEED".toList = some .speed := by decide

theorem parseOperation_speedRef (h m v : List Char) :
    parseOperation "ENC.SPEED_REF".toList [.word h, .comma, .word m, .comma, .word v] =
      return encSpeedRef (← parseField 8 h) (← parseField 8 m) (← parseValue v) := rfl

theorem parseOperation_writeFloat (h m i v : List Char) :
    parseOperation "ENC.WRITE_FLOAT".toList [.word h, .comma, .word m, .comma, .word i, .comma, .word v] =
      return .encWriteFloat (← parseField 8 h) (← parseField 8 m) (← parseField 16 i) (← parseValue v) := rfl

theorem parseOperation_speedMode (h m : List Char) :
    parseOperation "ENC.SPEED_MODE".toList [.word h, .comma, .word m] =
      return encSpeedMode (← parseField 8 h) (← parseField 8 m) := rfl

theorem parseOperation_runMode (h m mode : List Char) :
    parseOperation "ENC.RUN_MODE".toList [.word h, .comma, .word m, .comma, .word mode] =
      return .encRunMode (← parseField 8 h) (← parseField 8 m) (← parseMode mode) := rfl

/-- Settles O39: the index and the mode that a pseudo-operation fixes are what their spellings parse to. -/
theorem pseudoOperationsExpand : Obligations.PseudoOperationsExpand := by
  intro h m v
  constructor
  · rw [parseOperation_speedRef, parseOperation_writeFloat, parseField_speedRefIndex]
    rfl
  · rw [parseOperation_speedMode, parseOperation_runMode, parseMode_speed]
    rfl

end Sys2Proof.Machine
end

section
/-! SUPPORT. The value of a list of hex digits and of a drawn digit (40_slcan_frame_codec.md R122-R124). -/

namespace Sys2Proof.Machine

/-- The positional sum of R123. The last digit has weight 1, and it moves the digits before it up by one power of 16. -/
theorem parseHex_eq_sum (ds : List (BitVec 4)) :
    parseHex ds = ((List.range ds.length).map fun j => (ds.getD j 0).toNat * 16 ^ (ds.length - 1 - j)).sum := by
  induction ds using List.reverseRecOn with
  | nil => rfl
  | append_singleton ds d ih =>
    have hshift : ∀ j ∈ List.range ds.length,
        ((ds ++ [d]).getD j 0).toNat * 16 ^ (ds.length - j) = (ds.getD j 0).toNat * 16 ^ (ds.length - 1 - j) * 16 := by
      intro j hj
      have hj := List.mem_range.mp hj
      rw [List.getD_append _ _ _ _ hj, mul_assoc, ← pow_succ]
      congr 2
      omega
    have hlast : (ds ++ [d]).getD ds.length 0 = d := by simp
    rw [parseHex_append, ih, ← List.sum_map_mul_right, ← List.map_congr_left hshift, List.length_append, List.length_singleton,
      Nat.add_sub_cancel, List.range_succ, List.map_append, List.sum_append, List.map_singleton, List.sum_singleton, hlast,
      Nat.sub_self, pow_zero, mul_one]

/-- Settles O21. -/
theorem parseHexWeighsDigitsByPowersOf16 : Obligations.ParseHexWeighsDigitsByPowersOf16 := by
  refine ⟨parseHex_eq_sum, fun ds hlen => ?_⟩
  have := parseHex_lt ds
  rw [hlen] at this
  exact this

/-- As many digits with the same value are the same digits. -/
theorem eq_of_parseHex_eq {ds es : List (BitVec 4)} (hlen : ds.length = es.length) (h : parseHex ds = parseHex es) : ds = es := by
  induction ds using List.reverseRecOn generalizing es with
  | nil => exact (List.eq_nil_of_length_eq_zero hlen.symm).symm
  | append_singleton ds d ih =>
    cases es using List.reverseRecOn with
    | nil => simp at hlen
    | append_singleton es e =>
      rw [parseHex_append, parseHex_append] at h
      simp only [List.length_append, List.length_singleton, Nat.add_right_cancel_iff] at hlen
      have := d.isLt
      have := e.isLt
      rw [ih hlen (by omega), BitVec.eq_of_toNat_eq (x := d) (y := e) (by omega)]

/-- Nibble `k` of a number, from the bottom. -/
theorem extractLsb'_nibble {n : Nat} (x : BitVec n) (k : Nat) :
    x.extractLsb' (4 * k) 4 = BitVec.ofNat 4 (x.toNat / 16 ^ k) := by
  rw [BitVec.extractLsb', Nat.shiftRight_eq_div_pow, pow_mul]
  rfl

theorem hexByte_eq_div (b : Byte) : hexByte b = [hexU (BitVec.ofNat 4 (b.toNat / 16)), hexU (BitVec.ofNat 4 b.toNat)] := by
  rw [hexByte, extractLsb'_nibble b 1, extractLsb'_nibble b 0, pow_one, pow_zero, Nat.div_one]

theorem hexId_eq_map_range (w : Word) :
    hexId w = (List.range 8).map fun j => hexU (BitVec.ofNat 4 (w.toNat / 16 ^ (7 - j))) := by
  simp only [← extractLsb'_nibble]
  rfl

/-- Upper-case digits are drawn back as they were read. -/
theorem hexU_of_hexval {c : Byte} {d : BitVec 4} (h : hexval c = some d) (hc : c.toNat < 0x61) : hexU d = c := by
  revert c d
  decide

theorem eq_map_hexU {cs : Buffer} {ds : List (BitVec 4)} (h : cs.map hexval = ds.map some) (hcs : ∀ c ∈ cs, c.toNat < 0x61) :
    cs = ds.map hexU := by
  induction cs generalizing ds with
  | nil => simp_all
  | cons c cs ih =>
    cases ds with
    | nil => simp at h
    | cons d ds =>
      simp only [List.map_cons, List.cons.injEq] at h
      obtain ⟨hc, hcs'⟩ := List.forall_mem_cons.mp hcs
      rw [List.map_cons, hexU_of_hexval h.1 hc, ← ih h.2 hcs']

theorem nibbles_of_pair (hi lo : BitVec 4) : nibbles (BitVec.ofNat 8 (hi.toNat * 16 + lo.toNat)) = [hi, lo] := by
  revert hi lo
  decide

/-- An even number of digits are the nibbles of the bytes that they spell. -/
theorem flatMap_nibbles_pairBytes {ds : List (BitVec 4)} {n : Nat} (h : ds.length = 2 * n) :
    (pairBytes ds).flatMap nibbles = ds := by
  induction n generalizing ds with
  | zero => rw [List.eq_nil_of_length_eq_zero h]; rfl
  | succ n ih =>
    match ds, h with
    | hi :: lo :: ds, h =>
      simp only [List.length_cons] at h
      rw [pairBytes, List.flatMap_cons, nibbles_of_pair, ih (by omega)]
      rfl

/-- Byte `k` is spelled by digits `2k` and `2k + 1`. -/
theorem pairBytes_eq_map_range {ds : List (BitVec 4)} {n : Nat} (h : ds.length = 2 * n) :
    pairBytes ds = (List.range n).map fun k =>
      BitVec.ofNat 8 ((ds.getD (2 * k) 0).toNat * 16 + (ds.getD (2 * k + 1) 0).toNat) := by
  induction n generalizing ds with
  | zero => rw [List.eq_nil_of_length_eq_zero h]; rfl
  | succ n ih =>
    match ds, h with
    | hi :: lo :: ds, h =>
      simp only [List.length_cons] at h
      rw [pairBytes, ih (by omega), List.range_succ_eq_map, List.map_cons, List.map_map]
      rfl

end Sys2Proof.Machine
end

section
/-! SUPPORT. The end of FRAME.ENC, of FRAME.DEC and of the marker rows (40_slcan_frame_codec.md R130, R131). -/

namespace Sys2Proof.Machine

theorem exec_frameEnc_ok {kind : FrameKind} {id : Word} {plen : BitVec 4} {payload : Bytes8} {r : Result}
    (h : frameEnc kind id plen payload = .ok r) (s : State) :
    exec (.frameEnc kind id plen payload) s = .next { s with rsp := some (.ok r) } := by
  rw [exec, execFrameEnc, h, finish_ok]

theorem exec_frameEnc_raise {kind : FrameKind} {id : Word} {plen : BitVec 4} {payload : Bytes8} {k : ErrKind}
    (h : frameEnc kind id plen payload = raise k) (s : State) :
    exec (.frameEnc kind id plen payload) s = .next { s with rsp := some (.err k 0) } := by
  rw [exec, execFrameEnc, h, finish_raise]

/-- FRAME.DEC answers a result exactly when its rule decodes a frame, and the result is that frame. -/
theorem exec_frameDec_eq_ok {input : Buffer} {s : State} {r : Result} :
    exec (.frameDec input) s = .next { s with rsp := some (.ok r) } ↔ ∃ f, frameDec input = .ok f ∧ f.result = r := by
  rw [exec, execFrameDec, frameResult]
  match frameDec input with
  | .ok f => simp
  | .error (.raise k v) => simp
  | .error (.fault f) => simp

theorem exec_frameDec_raise {input : Buffer} {k : ErrKind} (h : frameDec input = raise k) (s : State) :
    exec (.frameDec input) s = .next { s with rsp := some (.err k 0) } := by
  rw [exec, execFrameDec, frameResult, h, raise_bind, finish_raise]

theorem frameDec_markByte (k : FrameKind) (rest : Buffer) :
    frameDec (k.markByte :: rest) = decodeByKind (some k) (k.markByte :: rest) := by
  rw [frameDec_cons, marker_markByte]

theorem finish_decodeByKind_other {kind : FrameKind} (h : kind ≠ .extData) (input : Buffer) (s : State) :
    finish (frameResult (decodeByKind (some kind) input)) s = .next { s with rsp := some (.err .unsupportedFrameKind 0) } := by
  rw [decodeByKind_other h, frameResult, raise_bind, finish_raise]

theorem exec_frameDec_markByte (k : FrameKind) (rest : Buffer) (s : State) :
    exec (.frameDec (k.markByte :: rest)) s = finish (frameResult (decodeByKind (some k) (k.markByte :: rest))) s := by
  rw [← frameDec_markByte]
  rfl

theorem exec_markExtData (rest : Buffer) (s : State) : exec (.markExtData rest) s = exec (.frameDec (0x54 :: rest)) s :=
  (exec_frameDec_markByte .extData rest s).symm

theorem exec_frameDec_otherMarker {kind : FrameKind} (h : kind ≠ .extData) (rest : Buffer) (s : State) :
    exec (.frameDec (kind.markByte :: rest)) s = .next { s with rsp := some (.err .unsupportedFrameKind 0) } :=
  (exec_frameDec_markByte kind rest s).trans (finish_decodeByKind_other h _ s)

/-- Settles O26: a marker row is the branch of its kind, and FRAME.DEC takes that branch on the kind's marker byte. -/
theorem markerRowsAreFrameDecsBranches : Obligations.MarkerRowsAreFrameDecsBranches := by
  intro rest s
  have hstd : FrameKind.stdData ≠ .extData := by decide
  have hextRemote : FrameKind.extRemote ≠ .extData := by decide
  have hstdRemote : FrameKind.stdRemote ≠ .extData := by decide
  exact ⟨exec_markExtData rest s,
    finish_decodeByKind_other hstd (FrameKind.stdData.markByte :: rest) s, exec_frameDec_otherMarker hstd rest s,
    finish_decodeByKind_other hextRemote (FrameKind.extRemote.markByte :: rest) s, exec_frameDec_otherMarker hextRemote rest s,
    finish_decodeByKind_other hstdRemote (FrameKind.stdRemote.markByte :: rest) s, exec_frameDec_otherMarker hstdRemote rest s⟩

end Sys2Proof.Machine
end

section
/-! SUPPORT. What FRAME.ENC draws and refuses (40_slcan_frame_codec.md R130, R135), and that FRAME.DEC reads it back (R136). -/

namespace Sys2Proof.Machine

theorem length_take_payload (payload : Bytes8) {n : Nat} (h : n ≤ MAX_DLC) : (payload.toList.take n).length = n := by
  rw [List.length_take]
  exact Nat.min_eq_left h

/-- Settles O22: the frame drawn is `frameText`, whose identifier and bytes are spelled nibble by nibble. -/
theorem frameEncSpellsTheFrame : Obligations.FrameEncSpellsTheFrame := by
  intro id plen payload s hid hplen
  refine ⟨_, exec_frameEnc_ok (frameEnc_legal hid hplen) s, ?_, ?_⟩
  · rw [frameText, hexId_eq_map_range, funext hexByte_eq_div]
    simp [MARK_EXT_DATA]
  · rw [frameText_length, length_take_payload payload hplen, FRAME_LEN, HDR_LEN]

/-- Settles O23. -/
theorem frameEncErrorsInOrder : Obligations.FrameEncErrorsInOrder := by
  intro kind id plen payload s
  refine ⟨fun hkind => exec_frameEnc_raise (frameEnc_otherKind hkind id plen payload) s, ?_, ?_⟩
  · rintro rfl hid
    exact exec_frameEnc_raise (frameEnc_contract payload (.inl hid)) s
  · rintro rfl - hplen
    exact exec_frameEnc_raise (frameEnc_contract payload (.inr hplen)) s

/-- Settles O27: the drawn text begins with the marker, and the decoder reads the rest back. -/
theorem frameDecInvertsFrameEnc : Obligations.FrameDecInvertsFrameEnc := by
  intro id plen payload s hid hplen
  have hmarked := decodeMarked_frameText hid hplen (length_take_payload payload hplen)
  exact ⟨_, exec_frameEnc_ok (frameEnc_legal hid hplen) s,
    exec_frameDec_eq_ok.mpr ⟨_, frameDec_eq_ok.mpr ⟨rfl, hmarked⟩, rfl⟩⟩

end Sys2Proof.Machine
end

section
/-! SUPPORT. The lines that FRAME.DEC accepts (40_slcan_frame_codec.md R132), and those among them that FRAME.ENC draws
(R136). -/

namespace Sys2Proof.Machine

/-- Settles O24: the line's digits are what `decodeMarked` reads, and MARK.T is FRAME.DEC on a line that begins with T. -/
theorem frameDecReadsTheFrame : Obligations.FrameDecReadsTheFrame := by
  intro input ids data dlc s hhead hdlc hlen hids hd hdata hid
  have hdec : exec (.frameDec input) s = .next { s with rsp := some (.ok (.frame .extData (BitVec.ofNat 29 (parseHex ids)) dlc
      (pairBytes data))) } := by
    refine exec_frameDec_eq_ok.mpr ⟨_, frameDec_eq_ok.mpr ⟨hhead, decodeMarked_eq_ok.mpr
      ⟨ids, dlc, data, hids, ?_, hdata, hid, hdlc, hlen, rfl⟩⟩, rfl⟩
    obtain ⟨c, hc, hval⟩ := Option.map_eq_some_iff.mp hd
    rw [hc, Option.bind_some, hval]
  have hdatalen : data.length = 2 * dlc.toNat := by
    rw [hexDigits_length (hexDigits_eq_ok.mpr hdata), List.length_drop]
    omega
  rw [pairBytes_eq_map_range hdatalen] at hdec
  obtain ⟨rest, rfl⟩ := List.head?_eq_some_iff.mp hhead
  exact ⟨hdec, (exec_markExtData rest s).trans hdec⟩

/-- The identifier digits of a line are those drawn for the identifier they spell. -/
theorem hexId_of_parseHex {ids : List (BitVec 4)} {w : Word} (hlen : ids.length = 8) (h : w.toNat = parseHex ids) :
    hexId w = ids.map hexU := by
  have hsame : (idNibbles w).length = ids.length := hlen.symm
  rw [hexId_eq, eq_of_parseHex_eq hsame ((parseHex_idNibbles w).trans h)]

/-- The data digits of a line are those drawn for the bytes they spell. -/
theorem flatMap_hexByte_pairBytes {data : List (BitVec 4)} {n : Nat} (h : data.length = 2 * n) :
    (pairBytes data).flatMap hexByte = data.map hexU := by
  rw [funext hexByte_eq, ← List.map_flatMap, flatMap_nibbles_pairBytes h]

/-- A line that is decoded and has no lower-case character is the text of the frame that it decodes to. -/
theorem eq_frameText_of_decodeMarked {input : Buffer} {f : DecodedFrame} (hhead : input.head? = some MARK_EXT_DATA)
    (hupper : ∀ c ∈ input, c.toNat < 0x61) (h : decodeMarked input = .ok f) :
    input = frameText (f.id.setWidth 32) f.dlc f.payload := by
  obtain ⟨ids, dlc, data, hids, hd, hdata, hid, -, hlen, rfl⟩ := decodeMarked_eq_ok.mp h
  obtain ⟨rest, rfl⟩ := List.head?_eq_some_iff.mp hhead
  obtain ⟨-, hrest⟩ := List.forall_mem_cons.mp hupper
  simp only [FRAME_LEN, HDR_LEN, List.length_cons] at hlen
  change (rest.take 8).map hexval = _ at hids
  change (rest.drop 9).map hexval = _ at hdata
  change (rest[8]?).bind hexval = _ at hd
  rw [List.getElem?_eq_getElem (by omega), Option.bind_some] at hd
  have hidslen : ids.length = 8 := by
    rw [hexDigits_length (hexDigits_eq_ok.mpr hids), List.length_take]
    omega
  have hdatalen : data.length = 2 * dlc.toNat := by
    rw [hexDigits_length (hexDigits_eq_ok.mpr hdata), List.length_drop]
    omega
  have hidval : ((BitVec.ofNat 29 (parseHex ids)).setWidth 32).toNat = parseHex ids := by
    rw [CAN_ID_MAX] at hid
    rw [BitVec.toNat_setWidth, BitVec.toNat_ofNat]
    omega
  rw [frameText, hexId_of_parseHex hidslen hidval, flatMap_hexByte_pairBytes hdatalen,
    ← eq_map_hexU hids fun c hc => hrest c (List.mem_of_mem_take hc),
    ← eq_map_hexU hdata fun c hc => hrest c (List.mem_of_mem_drop hc),
    hexU_of_hexval hd (hrest _ (List.getElem_mem _)), ← List.drop_eq_getElem_cons, List.take_append_drop]

/-- Settles O28. -/
theorem canonicalLinesEncodeBack : Obligations.CanonicalLinesEncodeBack := by
  intro input s id dlc p hupper hdec payload hpayload
  obtain ⟨f, hf, hresult⟩ := exec_frameDec_eq_ok.mp hdec
  obtain ⟨hhead, hmarked⟩ := frameDec_eq_ok.mp hf
  obtain ⟨-, hdlc, -, -⟩ := decodeMarked_limits hmarked
  have htext := eq_frameText_of_decodeMarked hhead hupper hmarked
  simp only [DecodedFrame.result, Result.frame.injEq] at hresult
  obtain ⟨-, rfl, rfl, rfl⟩ := hresult
  have hid : (f.id.setWidth 32).toNat ≤ CAN_ID_MAX := by
    have := f.id.isLt
    rw [BitVec.toNat_setWidth, CAN_ID_MAX]
    omega
  rw [exec_frameEnc_ok (frameEnc_legal hid hdlc), hpayload, ← htext]

end Sys2Proof.Machine
end

section
/-! SUPPORT. The errors of FRAME.DEC in the order of its checks (40_slcan_frame_codec.md R132; 60_exceptions.md R255): each
lemma takes the checks before its own as passed. -/

namespace Sys2Proof.Machine

theorem marker_eq_none {m : Byte} (h : m ∉ [0x54, 0x74, 0x52, 0x72]) : marker m = none := by
  simp only [List.mem_cons, List.not_mem_nil, or_false, not_or] at h
  obtain ⟨hT, ht, hR, hr⟩ := h
  rw [marker, if_neg hT, if_neg ht, if_neg hR, if_neg hr]

theorem frameDec_noMarker {m : Byte} (h : m ∉ [0x54, 0x74, 0x52, 0x72]) (rest : Buffer) :
    frameDec (m :: rest) = raise .malformedFrame := by
  rw [frameDec_cons, marker_eq_none h, decodeByKind]

theorem mem_take_drop_of_getElem? {α : Type} {l : List α} {i start n : Nat} {a : α} (h : l[i]? = some a) (hi : start ≤ i)
    (hi' : i < start + n) : a ∈ (l.drop start).take n := by
  refine List.mem_of_getElem? (i := i - start) ?_
  rw [List.getElem?_take_of_lt (by omega), List.getElem?_drop, Nat.add_sub_cancel' hi, h]

theorem hexDigits_nonHex {cs : Buffer} {c : Byte} (hc : c ∈ cs) (h : isHex c = false) : hexDigits cs = raise .invalidHexDigit :=
  hexDigits_eq_error.mpr ⟨rfl, c, hc, h⟩

theorem hexDigit_nonHex {c : Byte} (h : isHex c = false) : hexDigit c = raise .invalidHexDigit := by
  rw [hexDigit, hexval_eq_none.mpr h]

theorem hexDigit_ok {c : Byte} {d : BitVec 4} (h : hexval c = some d) : hexDigit c = .ok d := by
  rw [hexDigit, h]

theorem readByte_of_getElem? {b : Buffer} {i : Nat} {c : Byte} (h : b[i]? = some c) : readByte b i = .ok c := by
  rw [readByte, h]

section
variable {input : Buffer} {ids : List (BitVec 4)} {c c' : Byte} {dlc : BitVec 4}

theorem decodeMarked_short (hlen : input.length < HDR_LEN) : decodeMarked input = raise .malformedFrame := by
  rw [decodeMarked, check_neg (by omega), raise_bind]

variable (hlen : HDR_LEN ≤ input.length)
include hlen

theorem memRead_ids : memRead input 1 8 = .ok ((input.drop 1).take 8) :=
  memRead_ok (by rw [HDR_LEN] at hlen; omega)

theorem decodeMarked_idsNonHex (hc : c ∈ (input.drop 1).take 8) (hnon : isHex c = false) :
    decodeMarked input = raise .invalidHexDigit := by
  rw [decodeMarked, check_pos hlen, ok_bind, memRead_ids hlen, ok_bind, hexDigits_nonHex hc hnon, raise_bind]

variable (hids : hexDigits ((input.drop 1).take 8) = .ok ids)
include hids

theorem decodeMarked_idTooWide (hid : CAN_ID_MAX < parseHex ids) : decodeMarked input = raise .malformedFrame := by
  rw [decodeMarked, check_pos hlen, ok_bind, memRead_ids hlen, ok_bind, hids, ok_bind, check_neg (by omega), raise_bind]

variable (hid : parseHex ids ≤ CAN_ID_MAX) (hc : input[9]? = some c)
include hid hc

/-- What is left of the rule at the DLC character. -/
theorem decodeMarked_idLegal : decodeMarked input = (do
    let dlc ← hexDigit c
    check (dlc.toNat ≤ MAX_DLC) .malformedFrame
    check (input.length = FRAME_LEN dlc.toNat) .malformedFrame
    let digits ← hexDigits (← memRead input 10 (2 * dlc.toNat))
    return { kind := .extData, id := BitVec.ofNat 29 (parseHex ids), dlc := dlc, payload := pairBytes digits }) := by
  rw [decodeMarked, check_pos hlen, ok_bind, memRead_ids hlen, ok_bind, hids, ok_bind, check_pos hid, ok_bind,
    readByte_of_getElem? hc, ok_bind]

theorem decodeMarked_dlcNonHex (hnon : isHex c = false) : decodeMarked input = raise .invalidHexDigit := by
  rw [decodeMarked_idLegal hlen hids hid hc, hexDigit_nonHex hnon, raise_bind]

variable (hd : hexval c = some dlc)
include hd

theorem decodeMarked_dlcTooLarge (hdlc : MAX_DLC < dlc.toNat) : decodeMarked input = raise .malformedFrame := by
  rw [decodeMarked_idLegal hlen hids hid hc, hexDigit_ok hd, ok_bind, check_neg (by omega), raise_bind]

variable (hdlc : dlc.toNat ≤ MAX_DLC)
include hdlc

theorem decodeMarked_wrongLength (hn : input.length ≠ FRAME_LEN dlc.toNat) : decodeMarked input = raise .malformedFrame := by
  rw [decodeMarked_idLegal hlen hids hid hc, hexDigit_ok hd, ok_bind, check_pos hdlc, ok_bind, check_neg hn, raise_bind]

theorem decodeMarked_dataNonHex (hn : input.length = FRAME_LEN dlc.toNat) (hc' : c' ∈ (input.drop 10).take (2 * dlc.toNat))
    (hnon : isHex c' = false) : decodeMarked input = raise .invalidHexDigit := by
  have hdata : memRead input 10 (2 * dlc.toNat) = .ok ((input.drop 10).take (2 * dlc.toNat)) := memRead_ok hn.ge
  rw [decodeMarked_idLegal hlen hids hid hc, hexDigit_ok hd, ok_bind, check_pos hdlc, ok_bind, check_pos hn, ok_bind, hdata,
    ok_bind, hexDigits_nonHex hc' hnon, raise_bind]

end

theorem exec_frameDec_marked_raise {rest : Buffer} {k : ErrKind} (h : decodeMarked (0x54 :: rest) = raise k) (s : State) :
    exec (.frameDec (0x54 :: rest)) s = .next { s with rsp := some (.err k 0) } :=
  exec_frameDec_raise ((frameDec_markByte .extData rest).trans h) s

/-- Settles O25, check by check. -/
theorem frameDecErrorsInOrder : Obligations.FrameDecErrorsInOrder := by
  intro s rest
  refine ⟨exec_frameDec_raise frameDec_nil s, ?_, fun m hm => exec_frameDec_raise (frameDec_noMarker hm rest) s, ?_, ?_, ?_⟩
  · intro m hm
    obtain ⟨kind, hkind, rfl⟩ : ∃ kind, kind ≠ .extData ∧ m = FrameKind.markByte kind := by
      simp only [List.mem_cons, List.not_mem_nil, or_false] at hm
      obtain rfl | rfl | rfl := hm
      · exact ⟨.stdData, by decide, rfl⟩
      · exact ⟨.extRemote, by decide, rfl⟩
      · exact ⟨.stdRemote, by decide, rfl⟩
    exact exec_frameDec_otherMarker hkind rest s
  · exact fun hlen => exec_frameDec_marked_raise (decodeMarked_short (Nat.succ_lt_succ hlen)) s
  · rintro hlen ⟨i, hi, hi', c, hc, hnon⟩
    have hmem := mem_take_drop_of_getElem? hc hi (n := 8) (by omega)
    exact exec_frameDec_marked_raise (decodeMarked_idsNonHex (Nat.succ_le_succ hlen) hmem hnon) s
  · intro ids hrest hmap
    have hlen : HDR_LEN ≤ (0x54 :: rest).length := Nat.succ_le_succ hrest
    have hids : hexDigits (((0x54 :: rest).drop 1).take 8) = .ok ids := hexDigits_eq_ok.mpr hmap
    refine ⟨fun hid => exec_frameDec_marked_raise (decodeMarked_idTooWide hlen hids hid) s, ?_, fun hid dlc hd => ?_⟩
    · rintro hid ⟨c, hc, hnon⟩
      exact exec_frameDec_marked_raise (decodeMarked_dlcNonHex hlen hids hid hc hnon) s
    obtain ⟨c, hc, hval⟩ := Option.map_eq_some_iff.mp hd
    refine ⟨fun hdlc => ?_, fun hdlc hn => ?_, ?_⟩
    · exact exec_frameDec_marked_raise (decodeMarked_dlcTooLarge hlen hids hid hc hval hdlc) s
    · exact exec_frameDec_marked_raise (decodeMarked_wrongLength hlen hids hid hc hval hdlc hn) s
    · rintro hdlc hn ⟨i, hi, hi', c', hc', hnon⟩
      have hmem := mem_take_drop_of_getElem? hc' hi (n := 2 * dlc.toNat) (by omega)
      exact exec_frameDec_marked_raise (decodeMarked_dataNonHex hlen hids hid hc hval hdlc hn hmem hnon) s

end Sys2Proof.Machine
end

section
/-! SUPPORT. The ends of ID.PACK and ID.UNPACK, and an identifier's way through a frame (41_identifier_packer.md R151, R152,
R154, R155). -/

namespace Sys2Proof.Machine

theorem not_idsLegal {host motor : Byte} (h : 127 < host.toNat ∨ 127 < motor.toNat) : ¬ idsLegal host motor := by
  simp only [idsLegal, ID_MAX]
  omega

theorem idPack_outOfRange {host motor : Byte} (h : ¬ idsLegal host motor) (ctype : BitVec 5) :
    idPack ctype host motor = raise .idOutOfRange := by
  rw [idPack, checkIds, check_neg h, raise_bind]

theorem idPack_typeTooLarge {ctype : BitVec 5} {host motor : Byte} (h : idsLegal host motor) (htype : ¬ ctype.toNat ≤ CTYPE_MAX) :
    idPack ctype host motor = raise .contractViolation := by
  rw [idPack, checkIds, check_pos h, ok_bind, check_neg htype, raise_bind]

theorem exec_idPack_legal {ctype : BitVec 5} {host motor : Byte} (h : idsLegal host motor) (htype : ctype.toNat ≤ CTYPE_MAX)
    (s : State) :
    exec (.idPack ctype host motor) s = .next { s with rsp := some (.ok (.id (commandId ctype host motor))) } := by
  rw [exec, execIdPack, idPack_eq_ok.mpr ⟨h, htype, rfl⟩, finish_ok]

theorem exec_idPack_raise {ctype : BitVec 5} {host motor : Byte} {k : ErrKind} (h : idPack ctype host motor = raise k) (s : State) :
    exec (.idPack ctype host motor) s = .next { s with rsp := some (.err k 0) } := by
  rw [exec, execIdPack, h, finish_raise]

theorem exec_idUnpack (id : CanId) (s : State) :
    exec (.idUnpack id) s =
      .next { s with rsp := some (.ok (.idFields (CanId.ctype id) (CanId.mid id) (CanId.hi id) (CanId.lo id))) } := rfl

/-- The four fields are the whole identifier (41_identifier_packer.md R150). -/
theorem canId_toNat_eq_fields (id : CanId) :
    id.toNat =
      (CanId.ctype id).toNat * 2 ^ 24 + (CanId.mid id).toNat * 2 ^ 16 + (CanId.hi id).toNat * 2 ^ 8 + (CanId.lo id).toNat := by
  simp only [CanId.ctype, CanId.mid, CanId.hi, CanId.lo, toNat_field]
  omega

theorem canId_word_toNat_le (id : CanId) : (id.setWidth 32 : Word).toNat ≤ CAN_ID_MAX := by
  rw [BitVec.toNat_setWidth, CAN_ID_MAX]
  omega

/-- Settles O30, check by check. -/
theorem idPackPlacesTheFields : Obligations.IdPackPlacesTheFields := by
  intro ctype host motor s
  refine ⟨fun hhost hmotor htype => ?_, fun h => ?_, fun hhost hmotor htype => ?_⟩
  · exact ⟨_, exec_idPack_legal ⟨hhost, hmotor⟩ htype s, commandId_toNat ctype host motor⟩
  · exact exec_idPack_raise (idPack_outOfRange (not_idsLegal h) ctype) s
  · exact exec_idPack_raise (idPack_typeTooLarge ⟨hhost, hmotor⟩ htype.not_ge) s

/-- Settles O31: ID.PACK and the command builder check the ids before anything else, and the four ENC operations end in the
command builder. -/
theorem idsOutOfRangeAreNeverClamped : Obligations.IdsOutOfRangeAreNeverClamped := by
  intro host motor s h
  have hids : ¬ idsLegal host motor := not_idsLegal h
  exact ⟨fun ctype => exec_idPack_raise (idPack_outOfRange hids ctype) s,
    finish_command_outOfRange hids CT_ENABLE 0 _ s,
    finish_command_outOfRange hids CT_DISABLE 0 _ s,
    fun _ => finish_command_outOfRange hids CT_WRITE_PARAM 8 _ s,
    fun _ _ => finish_command_outOfRange hids CT_WRITE_PARAM 8 _ s⟩

/-- Settles O32. -/
theorem idUnpackSplitsEveryIdentifier : Obligations.IdUnpackSplitsEveryIdentifier :=
  fun id s => ⟨_, _, _, _, exec_idUnpack id s, canId_toNat_eq_fields id⟩

/-- Settles O33: the packed identifier has its fields in their places, and FRAME.DEC inverts FRAME.ENC on every identifier of
29 bits. -/
theorem packedIdentifiersUnpackThroughAFrame : Obligations.PackedIdentifiersUnpackThroughAFrame := by
  intro ctype host motor plen payload s htype hhost hmotor hplen
  obtain ⟨out, henc, hdec⟩ :=
    frameDecInvertsFrameEnc _ plen payload s (canId_word_toNat_le (commandId ctype host motor)) hplen
  have hunpack := exec_idUnpack (commandId ctype host motor) s
  rw [ctype_commandId, mid_commandId, hi_commandId, lo_commandId] at hunpack
  rw [BitVec.setWidth_setWidth_of_le _ (by decide), BitVec.setWidth_eq] at hdec
  exact ⟨_, out, exec_idPack_legal ⟨hhost, hmotor⟩ htype s, hunpack, henc, hdec⟩

end Sys2Proof.Machine
end

section
/-! SUPPORT. The frame that each ENC operation draws (42_command_encoder.md R170-R176), and that FRAME.DEC and ID.UNPACK take
it apart again. -/

namespace Sys2Proof.Machine

/-- A field of a field. -/
theorem extractLsb'_field {n : Nat} (x : BitVec n) (start : Nat) {len i k : Nat} (h : i + k ≤ len) :
    (x.extractLsb' start len).extractLsb' i k = x.extractLsb' (start + i) k := by
  ext j hj
  have hlen : i + j < len := by omega
  simp [hlen, add_assoc]

/-- A byte-wide field is drawn as its two nibbles. -/
theorem hexByte_field {n : Nat} (x : BitVec n) (start : Nat) :
    hexByte (x.extractLsb' start 8) = [hexU (x.extractLsb' (start + 4) 4), hexU (x.extractLsb' start 4)] := by
  rw [hexByte, extractLsb'_field x start (by decide), extractLsb'_field x start (by decide), add_zero]

/-- The nibbles of a byte-wide field, as the digits of the number shifted down to it. -/
theorem hexByte_field_eq_div {n : Nat} (x : BitVec n) (start : Nat) :
    hexByte (x.extractLsb' start 8) =
      [hexU (BitVec.ofNat 4 (x.toNat / 2 ^ start / 16)), hexU (BitVec.ofNat 4 (x.toNat / 2 ^ start))] := by
  rw [hexByte_field, BitVec.extractLsb', BitVec.extractLsb', Nat.shiftRight_add, Nat.shiftRight_eq_div_pow,
    Nat.shiftRight_eq_div_pow]

/-- An identifier is drawn field by field, each as a byte: the type is below the three zero bits (30_encoding.md R81). -/
theorem hexId_canId (id : CanId) :
    hexId (id.setWidth 32) = hexByte ((CanId.ctype id).setWidth 8) ++ hexByte (CanId.mid id) ++ hexByte (CanId.hi id) ++
      hexByte (CanId.lo id) := by
  have htop : (id.setWidth 32 : Word).extractLsb' 24 8 = (CanId.ctype id).setWidth 8 := by
    apply BitVec.eq_of_toNat_eq
    rw [CanId.ctype, toNat_field, BitVec.toNat_setWidth, BitVec.toNat_setWidth, toNat_field]
    omega
  have hbelow (start : Nat) (h : start + 8 ≤ 32) : id.extractLsb' start 8 = (id.setWidth 32 : Word).extractLsb' start 8 :=
    (BitVec.extractLsb'_setWidth_of_le h).symm
  rw [← htop, CanId.mid, CanId.hi, CanId.lo, hbelow 16 (by decide), hbelow 8 (by decide), hbelow 0 (by decide)]
  simp only [hexByte_field]
  rfl

/-- The end of a command with legal ids: marker, type, the zero byte, the two ids, length and payload, each byte high nibble
first (42_command_encoder.md R172). -/
theorem finish_command_eq {host motor : Byte} (h : idsLegal host motor) (ctype : BitVec 5) {plen : BitVec 4}
    (hp : plen.toNat ≤ MAX_DLC) (payload : Bytes8) (s : State) :
    finish (command ctype host motor plen payload) s = .next { s with rsp := some (.ok (.bytes
      (MARK_EXT_DATA :: (hexByte (ctype.setWidth 8) ++
        [0x30, 0x30, hexU (BitVec.ofNat 4 (host.toNat / 16)), hexU (BitVec.ofNat 4 host.toNat),
          hexU (BitVec.ofNat 4 (motor.toNat / 16)), hexU (BitVec.ofNat 4 motor.toNat), hexU plen] ++
        (payload.toList.take plen.toNat).flatMap hexByte)))) } := by
  rw [command_legal h ctype hp, finish_ok, frameText, hexId_canId, ctype_commandId, mid_commandId, hi_commandId, lo_commandId,
    hexByte_eq_div host, hexByte_eq_div motor]
  rfl

/-- Settles O34: neither frame has payload characters, and the frames differ in the type's low digit. -/
theorem enableAndDisableFrames : Obligations.EnableAndDisableFrames := by
  intro host motor s
  refine ⟨fun hhost hmotor => ?_, fun h => ?_⟩
  · exact ⟨finish_command_eq ⟨hhost, hmotor⟩ CT_ENABLE (plen := 0) (by decide) Bytes8.zero s,
      finish_command_eq ⟨hhost, hmotor⟩ CT_DISABLE (plen := 0) (by decide) Bytes8.zero s⟩
  · have hids := not_idsLegal h
    exact ⟨finish_command_outOfRange hids CT_ENABLE 0 _ s, finish_command_outOfRange hids CT_DISABLE 0 _ s⟩

/-- Settles O35: the four frames differ in the low digit of payload byte 4. -/
theorem runModeFrame : Obligations.RunModeFrame := by
  intro host motor mode s hhost hmotor
  refine (finish_command_eq ⟨hhost, hmotor⟩ CT_WRITE_PARAM (plen := 8) (by decide) _ s).trans ?_
  cases mode <;> rfl

/-- The characters of `IndexBytes(index) ++ FloatBytes(value)` (42_command_encoder.md R170, R171). -/
theorem flatMap_hexByte_floatPayload (index : Half) (value : Word) :
    (floatPayload index value).toList.flatMap hexByte =
      hexByte (index.extractLsb' 0 8) ++ hexByte (index.extractLsb' 8 8) ++ [0x30, 0x30, 0x30, 0x30] ++
      hexByte (value.extractLsb' 0 8) ++ hexByte (value.extractLsb' 8 8) ++ hexByte (value.extractLsb' 16 8) ++
      hexByte (value.extractLsb' 24 8) := by
  have hzero : hexByte 0 = [0x30, 0x30] := rfl
  simp only [floatPayload, writePayload, Bytes8.toList, List.flatMap_cons, List.flatMap_nil, hzero, List.append_assoc]
  rfl

/-- Settles O36: every payload byte is a field of the index or of the value, or zero. -/
theorem writeFloatFrame : Obligations.WriteFloatFrame := by
  intro host motor index value s
  refine ⟨fun hhost hmotor => ?_, fun h => finish_command_outOfRange (not_idsLegal h) CT_WRITE_PARAM 8 _ s⟩
  refine (finish_command_eq ⟨hhost, hmotor⟩ CT_WRITE_PARAM (plen := 8) (by decide) (floatPayload index value) s).trans ?_
  have htake : (floatPayload index value).toList.take (8 : BitVec 4).toNat = (floatPayload index value).toList := rfl
  rw [htake, flatMap_hexByte_floatPayload]
  simp only [hexByte_field_eq_div, pow_zero, Nat.div_one]
  rfl

theorem toNat_bytes_half (x : Half) : x.toNat = (x.extractLsb' 0 8).toNat + 2 ^ 8 * (x.extractLsb' 8 8).toNat := by
  simp only [toNat_field]
  omega

theorem toNat_bytes_word (x : Word) :
    x.toNat = (x.extractLsb' 0 8).toNat + 2 ^ 8 * (x.extractLsb' 8 8).toNat + 2 ^ 16 * (x.extractLsb' 16 8).toNat +
      2 ^ 24 * (x.extractLsb' 24 8).toNat := by
  simp only [toNat_field]
  omega

/-- ID.UNPACK splits a command's identifier into what was packed (41_identifier_packer.md R152). -/
theorem exec_idUnpack_commandId (ctype : BitVec 5) (host motor : Byte) (s : State) :
    exec (.idUnpack (commandId ctype host motor)) s = .next { s with rsp := some (.ok (.idFields ctype 0 host motor)) } := by
  rw [exec_idUnpack, ctype_commandId, mid_commandId, hi_commandId, lo_commandId]

/-- A command with legal ids draws a frame, and FRAME.DEC gives its identifier and its payload back. -/
theorem frameDec_of_command {host motor : Byte} (h : idsLegal host motor) (ctype : BitVec 5) {plen : BitVec 4}
    (hp : plen.toNat ≤ MAX_DLC) (payload : Bytes8) (s : State) :
    ∃ out, finish (command ctype host motor plen payload) s = .next { s with rsp := some (.ok (.bytes out)) } ∧
      exec (.frameDec out) s = .next { s with rsp := some (.ok
        (.frame .extData (commandId ctype host motor) plen (payload.toList.take plen.toNat))) } := by
  obtain ⟨out, henc, hdec⟩ := frameDecInvertsFrameEnc _ plen payload s (canId_word_toNat_le (commandId ctype host motor)) hp
  rw [BitVec.setWidth_setWidth_of_le _ (by decide), BitVec.setWidth_eq] at hdec
  refine ⟨out, ?_, hdec⟩
  rw [← henc, exec, execFrameEnc, command, checkIds, check_pos h, ok_bind]

/-- Settles O38: the payload and the identifier come back, and the bytes of index and value make up their numbers. -/
theorem commandFramesCarryTheirOperands : Obligations.CommandFramesCarryTheirOperands := by
  intro host motor index value s hhost hmotor
  obtain ⟨out, henc, hdec⟩ :=
    frameDec_of_command ⟨hhost, hmotor⟩ CT_WRITE_PARAM (plen := 8) (by decide) (floatPayload index value) s
  exact ⟨out, _, _, _, _, _, _, _, henc, hdec, exec_idUnpack_commandId CT_WRITE_PARAM host motor s, toNat_bytes_half index,
    toNat_bytes_word value⟩

end Sys2Proof.Machine
end

section
/-! SUPPORT. The fields of a reply identifier and the raw words of a reply payload (30_encoding.md R84, R88;
41_identifier_packer.md R153; 43_response_decoder.md R206). -/

namespace Sys2Proof.Machine

theorem ctype_eq_ofNat (id : CanId) : CanId.ctype id = BitVec.ofNat 5 (id.toNat / 2 ^ 24) := by
  rw [CanId.ctype, BitVec.extractLsb', Nat.shiftRight_eq_div_pow]

theorem ctype_append (ctype : BitVec 5) (low : BitVec 24) : CanId.ctype (ctype ++ low) = ctype :=
  BitVec.extractLsb'_append_eq_left

/-- A reply identifier is its 32-bit word without the three zero bits on top (30_encoding.md R81). -/
theorem replyId_eq_setWidth (ctype : BitVec 5) (mid motor host : Byte) :
    replyId ctype mid motor host = (replyWord ctype mid motor host).setWidth 29 := by
  have hmid := toNat_append_eq ctype mid
  have hmotor := toNat_append_eq (ctype ++ mid) motor
  have hhost : (replyId ctype mid motor host).toNat = _ := toNat_append_eq (ctype ++ mid ++ motor) host
  apply BitVec.eq_of_toNat_eq
  rw [BitVec.toNat_setWidth, replyWord_toNat, hhost, hmotor, hmid]
  omega

theorem extractLsb'_replyId (ctype : BitVec 5) (mid motor host : Byte) {start len : Nat} (h : start + len ≤ 29) :
    (replyId ctype mid motor host).extractLsb' start len = (replyWord ctype mid motor host).extractLsb' start len := by
  rw [replyId_eq_setWidth, BitVec.extractLsb'_setWidth_of_le h]

@[simp] theorem replyHost_replyId (ctype : BitVec 5) (mid motor host : Byte) :
    CanId.replyHost (replyId ctype mid motor host) = host :=
  (extractLsb'_replyId ctype mid motor host (by decide)).trans (replyWord_host ctype mid motor host)

@[simp] theorem replyMotor_replyId (ctype : BitVec 5) (mid motor host : Byte) :
    CanId.replyMotor (replyId ctype mid motor host) = motor :=
  (extractLsb'_replyId ctype mid motor host (by decide)).trans (replyWord_motor ctype mid motor host)

@[simp] theorem replyFaults_replyId (ctype : BitVec 5) (mode : BitVec 2) (faults : BitVec 6) (motor host : Byte) :
    CanId.replyFaults (replyId ctype (mode ++ faults) motor host) = faults :=
  (extractLsb'_replyId ctype _ motor host (by decide)).trans (replyWord_faults ctype mode faults motor host)

@[simp] theorem replyMode_replyId (ctype : BitVec 5) (mode : BitVec 2) (faults : BitVec 6) (motor host : Byte) :
    CanId.replyMode (replyId ctype (mode ++ faults) motor host) = mode :=
  (extractLsb'_replyId ctype _ motor host (by decide)).trans (replyWord_mode ctype mode faults motor host)

/-- A field of a number cut to a width that holds the field is the field of the number. -/
theorem extractLsb'_ofNat {w start len : Nat} (n : Nat) (h : start + len ≤ w) :
    (BitVec.ofNat w n).extractLsb' start len = BitVec.ofNat len (n / 2 ^ start) := by
  apply BitVec.eq_of_getLsbD_eq
  intro i hi
  have hlt : start + i < w := by omega
  rw [BitVec.getLsbD_extractLsb', BitVec.getLsbD_ofNat, BitVec.getLsbD_ofNat, Nat.testBit_div_two_pow, decide_eq_true hlt,
    Bool.true_and, Nat.add_comm]

theorem ctype_ofNat (n : Nat) : CanId.ctype (BitVec.ofNat 29 n) = BitVec.ofNat 5 (n / 2 ^ 24) := extractLsb'_ofNat n (by decide)

@[simp] theorem replyHost_ofNat (n : Nat) : CanId.replyHost (BitVec.ofNat 29 n) = BitVec.ofNat 8 n := by
  rw [CanId.replyHost, extractLsb'_ofNat n (by decide), pow_zero, Nat.div_one]

@[simp] theorem replyMotor_ofNat (n : Nat) : CanId.replyMotor (BitVec.ofNat 29 n) = BitVec.ofNat 8 (n / 2 ^ 8) :=
  extractLsb'_ofNat n (by decide)

@[simp] theorem replyFaults_ofNat (n : Nat) : CanId.replyFaults (BitVec.ofNat 29 n) = BitVec.ofNat 6 (n / 2 ^ 16) :=
  extractLsb'_ofNat n (by decide)

@[simp] theorem replyMode_ofNat (n : Nat) : CanId.replyMode (BitVec.ofNat 29 n) = BitVec.ofNat 2 (n / 2 ^ 22) :=
  extractLsb'_ofNat n (by decide)

theorem halfBE_eq_ofNat (hi lo : Byte) : halfBE hi lo = BitVec.ofNat 16 (hi.toNat * 256 + lo.toNat) := by
  rw [← halfBE_toNat, BitVec.ofNat_toNat, BitVec.setWidth_eq]

theorem halfLE_eq_ofNat (b0 b1 : Byte) : halfLE b0 b1 = BitVec.ofNat 16 (b0.toNat + 256 * b1.toNat) := by
  rw [← halfLE_toNat, BitVec.ofNat_toNat, BitVec.setWidth_eq]

/-- The fault flags stand in identifier bits 21 down to 16 (43_response_decoder.md R206). -/
theorem faultSet_replyFaults (id : CanId) (flag : FaultFlag) :
    faultSet (CanId.replyFaults id) flag = id.getLsbD (16 + flag.bit) := by
  have hbit : flag.bit < 6 := by cases flag <;> decide
  rw [faultSet, CanId.replyFaults, BitVec.getLsbD_extractLsb', decide_eq_true hbit, Bool.true_and]

/-- Settles O47. -/
theorem feedbackFlagsAndMode : Obligations.FeedbackFlagsAndMode := fun id =>
  ⟨faultSet_replyFaults id .notCalibrated, faultSet_replyFaults id .hallEncoderFault,
    faultSet_replyFaults id .magneticEncoderFault, faultSet_replyFaults id .overtemperature,
    faultSet_replyFaults id .overcurrent, faultSet_replyFaults id .undervoltage, toNat_field id 22 2, rfl, rfl, rfl, rfl⟩

end Sys2Proof.Machine
end

section
/-! SUPPORT. What each communication type leads to (43_response_decoder.md R202-R205, R207), and the rows of the received
types. -/

namespace Sys2Proof.Machine

theorem finish_decodeFeedback (id : CanId) (p : Bytes8) (s : State) :
    finish (decodeFeedback id p.toList) s = .next { s with rsp := some (.ok (.feedback
      (CanId.replyHost id) (CanId.replyMotor id) (CanId.replyFaults id) (CanId.replyMode id)
      (F32.bits32 (qDecode .angle (halfBE p.b0 p.b1))) (F32.bits32 (qDecode .speed (halfBE p.b2 p.b3)))
      (F32.bits32 (qDecode .torque (halfBE p.b4 p.b5))) (F32.bits32 (qDecode .temp (halfBE p.b6 p.b7))))) } := by
  rw [decodeFeedback_full, finish_ok]

theorem finish_decodeParam (id : CanId) (p : Bytes8) (s : State) :
    finish (decodeParam id p.toList) s = .next { s with rsp := some (.ok (.param
      (CanId.replyHost id) (CanId.replyMotor id) (halfLE p.b0 p.b1) ⟨p.b4, p.b5, p.b6, p.b7⟩)) } := by
  rw [decodeParam_full, finish_ok]

theorem dispatchReply_status {id : CanId} (h : CanId.ctype id = CT_STATUS) (p : Buffer) :
    dispatchReply id p = decodeFeedback id p := if_pos h

theorem dispatchReply_readParam {id : CanId} (h : CanId.ctype id = CT_READ_PARAM) (p : Buffer) :
    dispatchReply id p = decodeParam id p := by
  have hstatus : CanId.ctype id ≠ CT_STATUS := by rw [h]; decide
  rw [dispatchReply, if_neg hstatus, if_pos h]

theorem dispatchReply_deviceId {id : CanId} (h : CanId.ctype id = CT_DEVICE_ID) (p : Buffer) :
    dispatchReply id p = raise .notImplemented := by
  have hstatus : CanId.ctype id ≠ CT_STATUS := by rw [h]; decide
  have hparam : CanId.ctype id ≠ CT_READ_PARAM := by rw [h]; decide
  rw [dispatchReply, if_neg hstatus, if_neg hparam, if_pos h]

theorem dispatchReply_unknown {id : CanId} (h : CanId.ctype id ∉ [CT_DEVICE_ID, CT_STATUS, CT_READ_PARAM]) (p : Buffer) :
    dispatchReply id p = raise .unknownCommunicationType (CanId.ctype id) := by
  simp only [List.mem_cons, List.not_mem_nil, or_false, not_or] at h
  obtain ⟨hdevice, hstatus, hparam⟩ := h
  rw [dispatchReply, if_neg hstatus, if_neg hparam, if_neg hdevice]

/-- Settles O45. -/
theorem deviceIdBroadcastIsNotImplemented : Obligations.DeviceIdBroadcastIsNotImplemented := by
  intro low p s
  rw [exec, execCt0DeviceId, dispatchReply_deviceId (ctype_append 0 low), finish_raise]

theorem exec_qDec (q : Quantity) (raw : Half) (s : State) :
    exec (.qDec q raw) s = .next { s with rsp := some (.ok (.f32 (F32.bits32 (qDecode q raw)))) } := by
  rw [exec, execQDec, qDec, pure_eq_ok, finish_ok]

/-- Settles O43: the row decodes the reply identifier made of its fields, and a raw word is its two bytes, high byte first. -/
theorem statusReportDecodesToFeedback : Obligations.StatusReportDecodesToFeedback := by
  intro mode faults motor host p s raw
  have hfeedback := finish_decodeFeedback (replyId 2 (mode ++ faults) motor host) p s
  simp only [replyHost_replyId, replyMotor_replyId, replyFaults_replyId, replyMode_replyId, halfBE_eq_ofNat] at hfeedback
  exact ⟨_, _, _, _, hfeedback, exec_qDec .angle _ s, exec_qDec .speed _ s, exec_qDec .torque _ s, exec_qDec .temp _ s⟩

/-- Settles O44. -/
theorem parameterReplyDecodesToParam : Obligations.ParameterReplyDecodesToParam := by
  intro mid motor host p s
  have hparam := finish_decodeParam (replyId 17 mid motor host) p s
  rw [replyHost_replyId, replyMotor_replyId] at hparam
  exact ⟨_, hparam, halfLE_toNat p.b0 p.b1⟩

end Sys2Proof.Machine
end

section
/-! SUPPORT. DEC.RESPONSE from what FRAME.DEC answers on the same buffer (43_response_decoder.md R200-R202, R208). -/

namespace Sys2Proof.Machine

theorem exec_decResponse_raise {input : Buffer} {k : ErrKind} {v : BitVec 5} (h : decResponse input = raise k v) (s : State) :
    exec (.decResponse input) s = .next { s with rsp := some (.err k v) } := by
  rw [exec, execDecResponse, h, finish_raise]

/-- FRAME.DEC answers an error exactly when its rule raises it. -/
theorem exec_frameDec_eq_err {input : Buffer} {s : State} {k : ErrKind} {v : BitVec 5} :
    exec (.frameDec input) s = .next { s with rsp := some (.err k v) } ↔ frameDec input = raise k v := by
  rw [exec, execFrameDec, frameResult]
  match frameDec input with
  | .ok f => simp [raise_eq]
  | .error (.raise k v) => simp [raise_eq]
  | .error (.fault f) => simp [raise_eq]

theorem decResponse_of_frameDec_raise {input : Buffer} {k : ErrKind} {v : BitVec 5} (hlen : input.length = RSP_LEN)
    (h : frameDec input = raise k v) : decResponse input = raise k v := by
  rw [decResponse, check_pos hlen, ok_bind, h, raise_bind]

/-- On an accepted line of 26 bytes the payload is full, and DEC.RESPONSE is the dispatch on the identifier. -/
theorem exec_decResponse_of_frameDec {input : Buffer} {s : State} {kind : FrameKind} {id : CanId} {dlc : BitVec 4}
    {payload : Buffer} (hlen : input.length = RSP_LEN)
    (h : exec (.frameDec input) s = .next { s with rsp := some (.ok (.frame kind id dlc payload)) }) :
    (∃ p : Bytes8, payload = p.toList) ∧ exec (.decResponse input) s = finish (dispatchReply id payload) s := by
  obtain ⟨f, hf, hresult⟩ := exec_frameDec_eq_ok.mp h
  simp only [DecodedFrame.result, Result.frame.injEq] at hresult
  obtain ⟨-, rfl, -, rfl⟩ := hresult
  obtain ⟨hdlc, hpayload⟩ := full_of_length hlen hf
  refine ⟨hpayload, ?_⟩
  rw [exec, execDecResponse, decResponse, check_pos hlen, ok_bind, hf, ok_bind, check_pos hdlc, ok_bind]

/-- Settles O40: the length check, and then FRAME.DEC's own end. -/
theorem lengthThenFrameErrorsComeFirst : Obligations.LengthThenFrameErrorsComeFirst := fun _ s =>
  ⟨fun hlen => exec_decResponse_raise (decResponse_length hlen) s,
    fun _ _ hlen h => exec_decResponse_raise (decResponse_of_frameDec_raise hlen (exec_frameDec_eq_err.mp h)) s⟩

/-- Settles O41: the type field is the identifier shifted down to it, and decides the branch. -/
theorem responseDispatchesOnTheType : Obligations.ResponseDispatchesOnTheType := by
  intro input s id payload hlen hdec ct answers
  obtain ⟨⟨p, rfl⟩, hexec⟩ := exec_decResponse_of_frameDec hlen hdec
  have hctype : CanId.ctype id = BitVec.ofNat 5 ct := ctype_eq_ofNat id
  refine ⟨fun hct => ?_, fun hct => ?_, fun hct => ?_, fun hct => ?_⟩
  · rw [hct] at hctype
    rw [dispatchReply_status hctype] at hexec
    exact ⟨_, _, _, _, _, _, _, _, hexec.trans (finish_decodeFeedback id p s)⟩
  · rw [hct] at hctype
    rw [dispatchReply_readParam hctype] at hexec
    exact ⟨_, _, _, _, hexec.trans (finish_decodeParam id p s)⟩
  · rw [hct] at hctype
    rw [dispatchReply_deviceId hctype] at hexec
    exact hexec
  · have hlt : ct < 2 ^ 5 := Nat.div_lt_of_lt_mul id.isLt
    have hunknown : CanId.ctype id ∉ [CT_DEVICE_ID, CT_STATUS, CT_READ_PARAM] := by
      simp only [List.mem_cons, List.not_mem_nil, or_false, not_or] at hct ⊢
      obtain ⟨h0, h2, h17⟩ := hct
      rw [hctype]
      exact ⟨fun h => h0 (eq_of_ofNat_eq hlt (by decide) h), fun h => h2 (eq_of_ofNat_eq hlt (by decide) h),
        fun h => h17 (eq_of_ofNat_eq hlt (by decide) h)⟩
    rw [dispatchReply_unknown hunknown, hctype] at hexec
    exact hexec

/-- Settles O42: FRAME.DEC reads the line's digits into the identifier and eight payload bytes, and the dispatch takes the
fields from these. -/
theorem replyLinesDecode : Obligations.ReplyLinesDecode := by
  intro input ids data s hlen hhead hdlc hids hdata id byte physical
  let p : Bytes8 := ⟨byte 0, byte 1, byte 2, byte 3, byte 4, byte 5, byte 6, byte 7⟩
  have hexec (hid : id ≤ 0x1FFFFFFF) :
      exec (.decResponse input) s = finish (dispatchReply (BitVec.ofNat 29 id) p.toList) s := by
    have hdlc8 : (input[9]?).map hexval = some (some 8) := by rw [hdlc]; rfl
    obtain ⟨hdec, -⟩ := frameDecReadsTheFrame input ids data 8 s hhead (by decide) hlen hids hdlc8 hdata hid
    exact (exec_decResponse_of_frameDec hlen hdec).2
  have hctype := ctype_ofNat id
  refine ⟨fun h => ?_, fun h => ?_⟩
  · rw [h] at hctype
    rw [hexec (by omega), dispatchReply_status hctype, finish_decodeFeedback, replyHost_ofNat, replyMotor_ofNat,
      replyFaults_ofNat, replyMode_ofNat]
    simp only [halfBE_eq_ofNat]
    rfl
  · rw [h] at hctype
    rw [hexec (by omega), dispatchReply_readParam hctype, finish_decodeParam, replyHost_ofNat, replyMotor_ofNat,
      halfLE_eq_ofNat]
    rfl

/-- The two branches of the dispatch that end in a result. -/
theorem feedback_or_param_of_dispatchReply {id : CanId} {p : Bytes8} {r : Result} (h : dispatchReply id p.toList = .ok r) :
    (∃ host motor faults mode angle speed torque temp, r = .feedback host motor faults mode angle speed torque temp) ∨
      ∃ host motor index value, r = .param host motor index value := by
  obtain ⟨-, hd⟩ | ⟨-, hd⟩ | ⟨-, hd⟩ | ⟨-, -, -, hd⟩ := dispatchReply_cases id p <;> rw [hd] at h
  · rw [decodeFeedback_full] at h
    cases h
    exact .inl ⟨_, _, _, _, _, _, _, _, rfl⟩
  · rw [decodeParam_full] at h
    cases h
    exact .inr ⟨_, _, _, _, rfl⟩
  · cases h
  · cases h

/-- DEC.RESPONSE ends in a result only through the dispatch. -/
theorem exists_dispatchReply_of_decResponse {input : Buffer} {r : Result} (h : decResponse input = .ok r) :
    ∃ id, ∃ p : Bytes8, dispatchReply id p.toList = .ok r := by
  by_cases hlen : input.length = RSP_LEN
  · obtain ⟨e, -, he⟩ | ⟨f, p, -, -, -, hdispatch⟩ := decResponse_26 hlen
    · rw [he] at h
      cases h
    · exact ⟨f.id, p, hdispatch ▸ h⟩
  · rw [decResponse_length hlen] at h
    cases h

/-- Settles O46: DEC.RESPONSE's rule ends in a result or an error, never in a fault. -/
theorem responseIsAllOrNothing : Obligations.ResponseIsAllOrNothing := by
  intro input s
  obtain ⟨r, hr, hexec⟩ | ⟨k, v, -, hexec⟩ | ⟨f, hf, -⟩ := finish_cases (decResponse input) s
  · obtain ⟨id, p, hdispatch⟩ := exists_dispatchReply_of_decResponse hr
    refine ⟨.ok r, hexec, ?_⟩
    obtain ⟨_, _, _, _, _, _, _, _, rfl⟩ | ⟨_, _, _, _, rfl⟩ := feedback_or_param_of_dispatchReply hdispatch
    · exact .inl ⟨_, _, _, _, _, _, _, _, rfl⟩
    · exact .inr (.inl ⟨_, _, _, _, rfl⟩)
  · exact ⟨.err k v, hexec, .inr (.inr ⟨k, v, rfl⟩)⟩
  · exact absurd hf (decResponse_completes input f)

end Sys2Proof.Machine
end

section
/-! SUPPORT. Q.DEC and Q.ENC through `exec`, and rounding to an integer (44_quantization_lut.md R231-R236). -/

namespace Sys2Proof.Machine

/-- The pattern the spec writes for 65535.0. -/
theorem fromBits32_65535 : F32.fromBits32 0x477FFF00 = F32.toF32 65535 := by decide

/-- The pattern of 10.0. -/
theorem fromBits32_10 : F32.fromBits32 0x41200000 = F32.toF32 10 := by decide

/-- Settles O49. -/
theorem qDecIsTheLinearMap : Obligations.QDecIsTheLinearMap := by
  intro raw s
  rw [fromBits32_65535, fromBits32_10]
  simp only [exec_qDec, qDecode_temp, qDecode_linear (q := .angle) (by decide), qDecode_linear (q := .speed) (by decide),
    qDecode_linear (q := .torque) (by decide), lutMin, lutRange, and_self]

/-- Q.ENC on a finite pattern, once the scaled value is rounded. -/
theorem exec_qEnc_of_roundHalfAway {q : Quantity} {value : Word} {r : Rounded}
    (hfin : F32.isFinite (F32.fromBits32 value) = true) (hr : roundHalfAway (qScaled q (F32.fromBits32 value)) = .ok r)
    (s : State) : exec (.qEnc q value) s = .next { s with rsp := some (.ok (.u16 (clamp r))) } := by
  rw [exec, execQEnc, qEnc, qEncode, check_pos hfin, ok_bind, hr, ok_bind, pure_eq_ok, ok_bind, pure_eq_ok, finish_ok]

/-- Settles O51: the scaled value is no NaN, so it has a rounding. -/
theorem qEncCompletesOnFiniteValues : Obligations.QEncCompletesOnFiniteValues := by
  intro q value s hfin
  rw [fromBits32_65535]
  have hnan := qScaled_isNaN q hfin
  obtain ⟨r, hr⟩ := roundHalfAway_ok hnan
  exact ⟨hnan, r, hr, exec_qEnc_of_roundHalfAway hfin hr s⟩

/-- A pattern spells a finite number exactly below that of infinity. -/
theorem isFinite_fromBits32 (w : Word) : F32.isFinite (F32.fromBits32 w) = true ↔ w.toNat % 2 ^ 31 < F32.infPattern := by
  unfold F32.fromBits32
  split_ifs with hfin hinf
  · exact iff_of_true rfl hfin
  · exact iff_of_false Bool.false_ne_true hfin
  · exact iff_of_false Bool.false_ne_true hfin

/-- Settles O52: with all exponent bits set, the magnitude pattern is that of infinity or above. -/
theorem qEncRejectsNonFiniteValues : Obligations.QEncRejectsNonFiniteValues := by
  intro q value s hexp
  have hfin : ¬ F32.isFinite (F32.fromBits32 value) = true := by
    rw [isFinite_fromBits32, F32.infPattern]
    omega
  rw [exec, execQEnc, qEnc, qEncode, check_neg hfin, raise_bind, raise_bind, finish_raise]

/-- A finite value rounds to its magnitude plus a half, rounded down, under its own sign. -/
theorem roundHalfAway_fin (neg : Bool) (mag : Nat) : roundHalfAway (.fin neg mag) =
    .ok (.int (if neg then -(((mag + 2 ^ 148) / 2 ^ 149 : Nat) : Int) else (((mag + 2 ^ 148) / 2 ^ 149 : Nat) : Int))) := by
  cases neg with
  | false => rw [roundHalfAway, if_neg Bool.false_ne_true]
  | true => rw [roundHalfAway, if_pos rfl]

/-- Settles O55. -/
theorem roundingIsNearestHalvesAway : Obligations.RoundingIsNearestHalvesAway :=
  ⟨fun neg mag => ⟨(mag + 2 ^ 148) / 2 ^ 149, roundHalfAway_fin neg mag, by omega, by omega⟩, rfl, rfl⟩

end Sys2Proof.Machine
end

section
/-! SUPPORT. How far a rounded value can be off: rounding keeps the order of values, and so do multiplication and division by
a positive number; and below a power of two it is at most half a step off. -/

namespace Sys2Proof.Machine.F32

/-- Rounding keeps the order of two values: were it reversed, both would lie at one midpoint, where a tie goes one way. -/
theorem roundPattern_mono {a b c d : Nat} (hb : 0 < b) (hd : 0 < d) (h : a * d ≤ c * b) :
    roundPattern a b ≤ roundPattern c d := by
  by_contra! hlt
  have hcd := mt (lt_roundPattern_iff c hd _).mpr (lt_irrefl (roundPattern c d))
  have hab := (lt_roundPattern_iff a hb _).mp hlt
  rw [← Nat.add_mul] at hcd hab
  generalize magOfPattern (roundPattern c d) + magOfPattern (roundPattern c d + 1) = twiceMid at hcd hab
  have ha := Nat.mul_le_mul_right d (show twiceMid * b ≤ 2 * a by omega)
  have hc := Nat.mul_le_mul_right b (show 2 * c ≤ twiceMid * d by omega)
  have hta : twiceMid * b = 2 * a := Nat.eq_of_mul_eq_mul_right hd (by linarith)
  have htc : 2 * c = twiceMid * d := Nat.eq_of_mul_eq_mul_right hb (by linarith)
  omega

/-- Below `2 ^ (j + 25)` units, neighbouring patterns are at most `2 ^ (j + 1)` units apart. -/
theorem magOfPattern_succ_le {w j : Nat} (h : magOfPattern w < 2 ^ (j + 25)) :
    magOfPattern (w + 1) ≤ magOfPattern w + 2 ^ (j + 1) := by
  obtain ⟨e, n, hnormal, hn, rfl⟩ := exists_base_add w
  have hexp : e ≤ j + 1 := by
    obtain rfl | hn23 := hnormal
    · omega
    rw [magOfPattern_base_add (.inr hn23) hn.le] at h
    have hlt : 2 ^ (23 + e) < 2 ^ (j + 25) := by
      calc 2 ^ (23 + e) = 2 ^ 23 * 2 ^ e := pow_add 2 23 e
        _ ≤ n * 2 ^ e := Nat.mul_le_mul_right _ hn23
        _ < 2 ^ (j + 25) := h
    have := (Nat.pow_lt_pow_iff_right Nat.one_lt_two).mp hlt
    omega
  rw [Nat.add_assoc, magOfPattern_base_add hnormal hn.le, magOfPattern_base_add (by omega) hn, Nat.succ_mul]
  exact Nat.add_le_add_left (Nat.pow_le_pow_right Nat.two_pos hexp) _

/-- Below `2 ^ (j + 25)` units, rounding is at most `2 ^ j` units off. -/
theorem roundPattern_error {num den j : Nat} (hden : 0 < den) (h : num < 2 ^ (j + 25) * den) :
    magOfPattern (roundPattern num den) * den ≤ num + 2 ^ j * den ∧
      num ≤ magOfPattern (roundPattern num den) * den + 2 ^ j * den := by
  obtain ⟨v, hlow, hhigh, hround⟩ := roundPattern_between num hden
  have hstep := Nat.mul_le_mul_right den (magOfPattern_succ_le (Nat.lt_of_mul_lt_mul_right (hlow.trans_lt h)))
  rw [pow_succ, Nat.add_mul, Nat.mul_right_comm] at hstep
  obtain ⟨hv, hmid⟩ | ⟨hv, hmid⟩ := hround <;> rw [hv] <;> omega

theorem realSign_mul_self (b : Bool) : realSign b * realSign b = 1 := by cases b <;> norm_num [realSign]

theorem abs_realSign (b : Bool) : |realSign b| = 1 := by cases b <;> norm_num [realSign]

theorem abs_realSign_mul (b : Bool) (num den : Nat) : |realSign b * ((num : Rat) / den)| = num / den := by
  have hnonneg : (0 : Rat) ≤ num / den := by positivity
  rw [abs_mul, abs_realSign, one_mul, abs_of_nonneg hnonneg]

theorem ofRat_of_lt (neg : Bool) {num den : Nat} (h : roundPattern num den < infPattern) :
    ofRat neg num den = .fin neg (magOfPattern (roundPattern num den)) := if_pos h

/-- A rounding whose exact value is below the magnitude of a finite pattern stays finite and below it. -/
theorem finite_of_isRoundingOf {r : F32} {exact : Rat} {w : Nat} (h : IsRoundingOf r exact) (hw : w < infPattern)
    (hle : |exact| ≤ magOfPattern w) : ∃ neg m, r = .fin neg m ∧ m ≤ magOfPattern w := by
  obtain ⟨neg, num, den, hden, rfl, rfl⟩ := h
  have hden' : (0 : Rat) < den := Nat.cast_pos.mpr hden
  rw [abs_realSign_mul, div_le_iff₀ hden'] at hle
  have hround : roundPattern num den ≤ w := by
    rw [← roundPattern_magOfPattern w]
    refine roundPattern_mono hden Nat.one_pos ?_
    rw [Nat.mul_one]
    exact_mod_cast hle
  exact ⟨neg, _, ofRat_of_lt neg (hround.trans_lt hw), magOfPattern_strictMono.monotone hround⟩

/-- A rounding whose exact value is below `2 ^ j * 2 ^ 25` units is finite and at most `2 ^ j` units off. -/
theorem near_of_isRoundingOf {r : F32} {exact : Rat} {j : Nat} (h : IsRoundingOf r exact) (hj : j ≤ 225)
    (hlt : |exact| < 2 ^ j * 2 ^ 25) : ∃ neg m, r = .fin neg m ∧ |(F32.fin neg m).units - exact| ≤ 2 ^ j := by
  obtain ⟨neg, num, den, hden, rfl, rfl⟩ := h
  have hden' : (0 : Rat) < den := Nat.cast_pos.mpr hden
  rw [abs_realSign_mul, ← pow_add, div_lt_iff₀ hden'] at hlt
  have hnum : num < 2 ^ (j + 25) * den := by exact_mod_cast hlt
  have hfinite : num < den * 2 ^ 250 := by
    rw [Nat.mul_comm]
    exact hnum.trans_le (Nat.mul_le_mul_right _ (Nat.pow_le_pow_right Nat.two_pos (by omega)))
  refine ⟨neg, _, ofRat_of_lt neg (roundPattern_lt_inf hfinite), ?_⟩
  obtain ⟨habove, hbelow⟩ := roundPattern_error hden hnum
  rw [units_fin, ← mul_sub, abs_mul, abs_realSign, one_mul, abs_le, le_sub_iff_add_le, sub_le_iff_le_add, neg_add_le_iff_le_add,
    div_le_iff₀ hden', ← sub_le_iff_le_add', le_div_iff₀ hden', sub_mul, sub_le_iff_le_add', add_mul]
  constructor
  · rw [add_comm]; exact_mod_cast hbelow
  · rw [add_comm]; exact_mod_cast habove

/-- Both values have this sign, and the second is no nearer to zero. -/
inductive LeMag (neg : Bool) : F32 → F32 → Prop where
  | fin {x y : Nat} (h : x ≤ y) : LeMag neg (.fin neg x) (.fin neg y)
  | finInf (x : Nat) : LeMag neg (.fin neg x) (.inf neg)
  | infInf : LeMag neg (.inf neg) (.inf neg)

theorem LeMag.exists_fin {neg : Bool} {u : F32} {y : Nat} (h : LeMag neg u (.fin neg y)) : ∃ x ≤ y, u = .fin neg x := by
  cases h with
  | fin h => exact ⟨_, h, rfl⟩

theorem leMag_ofRat_inf (neg : Bool) (num den : Nat) : LeMag neg (ofRat neg num den) (.inf neg) := by
  obtain ⟨m, h⟩ | h := ofRat_cases neg num den <;> rw [h]
  · exact .finInf m
  · exact .infInf

/-- Rounding keeps the order of magnitudes under one sign. -/
theorem leMag_ofRat (neg : Bool) {a b c d : Nat} (hb : 0 < b) (hd : 0 < d) (h : a * d ≤ c * b) :
    LeMag neg (ofRat neg a b) (ofRat neg c d) := by
  have hround := roundPattern_mono hb hd h
  by_cases hfin : roundPattern c d < infPattern
  · rw [ofRat_of_lt neg hfin, ofRat_of_lt neg (hround.trans_lt hfin)]
    exact .fin (magOfPattern_strictMono.monotone hround)
  · rw [ofRat.eq_def neg c d, if_neg hfin]
    exact leMag_ofRat_inf neg a b

/-- Multiplying by a positive number keeps the order. -/
theorem LeMag.mul {neg : Bool} {u v : F32} (h : LeMag neg u v) {y : Nat} (hy : y ≠ 0) :
    LeMag neg (F32.mul u (.fin false y)) (F32.mul v (.fin false y)) := by
  have hinf : F32.mul (.inf neg) (.fin false y) = .inf neg := (if_neg hy).trans (by rw [Bool.xor_false])
  cases h with
  | fin h =>
    rw [mul_fin, mul_fin, Bool.xor_false]
    exact leMag_ofRat neg (by positivity) (by positivity) (Nat.mul_le_mul_right _ (Nat.mul_le_mul_right y h))
  | finInf x =>
    rw [mul_fin, Bool.xor_false, hinf]
    exact leMag_ofRat_inf _ _ _
  | infInf =>
    rw [hinf]
    exact .infInf

/-- Dividing by a positive number keeps the order. -/
theorem LeMag.div {neg : Bool} {u v : F32} (h : LeMag neg u v) {y : Nat} (hy : y ≠ 0) :
    LeMag neg (F32.div u (.fin false y)) (F32.div v (.fin false y)) := by
  have hinf : F32.div (.inf neg) (.fin false y) = .inf neg := by rw [F32.div, Bool.xor_false]
  have hpos := Nat.pos_of_ne_zero hy
  cases h with
  | fin h =>
    rw [div_fin _ _ _ hy, div_fin _ _ _ hy, Bool.xor_false]
    exact leMag_ofRat neg hpos hpos (Nat.mul_le_mul_right _ (Nat.mul_le_mul_right _ h))
  | finInf x =>
    rw [div_fin _ _ _ hy, Bool.xor_false, hinf]
    exact leMag_ofRat_inf _ _ _
  | infInf =>
    rw [hinf]
    exact .infInf

/-- A nonzero exact value of this sign and of at least `m` units rounds no nearer to zero than `m` does. -/
theorem leMag_of_isRoundingOf {r : F32} {exact : Rat} {neg : Bool} {m : Nat} (h : IsRoundingOf r exact)
    (hsign : 0 < realSign neg * exact) (hle : (m : Rat) ≤ realSign neg * exact) : LeMag neg (ofRat neg m 1) r := by
  obtain ⟨s, num, den, hden, rfl, rfl⟩ := h
  have hden' : (0 : Rat) < den := Nat.cast_pos.mpr hden
  obtain rfl | rfl : s = neg ∨ s = !neg := by cases s <;> cases neg <;> decide
  · rw [← mul_assoc, realSign_mul_self, one_mul, le_div_iff₀ hden'] at hle
    refine leMag_ofRat s Nat.one_pos hden ?_
    rw [Nat.mul_one]
    exact_mod_cast hle
  · rw [← mul_assoc, realSign_not, mul_neg, realSign_mul_self, neg_one_mul] at hsign
    have hnonneg : (0 : Rat) ≤ num / den := by positivity
    linarith

end Sys2Proof.Machine.F32
end

section
/-! SUPPORT. The entries of the LUT (10_state.md R40), and the largest raw word in both directions: by the order, no other
value goes past it. -/

namespace Sys2Proof.Machine

open F32 (LeMag)

/-- The range of an entry, in units. -/
def rangeUnits (q : Quantity) : Nat := F32.magOfPattern (lutRange q).toNat

theorem fromBits32_lutRange (q : Quantity) : F32.fromBits32 (lutRange q) = .fin false (rangeUnits q) := by
  cases q <;> decide

theorem rangeUnits_ne_zero (q : Quantity) : rangeUnits q ≠ 0 := by cases q <;> decide

/-- A range is a number that rounding leaves as it is. -/
theorem fromBits32_lutRange_eq_ofRat (q : Quantity) : F32.fromBits32 (lutRange q) = F32.ofRat false (rangeUnits q) 1 := by
  rw [fromBits32_lutRange, rangeUnits, F32.ofRat_magOfPattern false (by cases q <;> decide)]

/-- The range of a linear entry is twice the magnitude of its negative `min`, so `min + range` is that magnitude, with no
rounding. -/
theorem linear_entry {q : Quantity} (hq : q ≠ .temp) : ∃ w < F32.infPattern,
    F32.fromBits32 (lutMin q) = .fin true (F32.magOfPattern w) ∧ rangeUnits q = 2 * F32.magOfPattern w ∧
    F32.add (F32.fromBits32 (lutMin q)) (F32.fromBits32 (lutRange q)) = .fin false (F32.magOfPattern w) := by
  cases q with
  | angle => exact ⟨0x41490FDB, by decide⟩
  | speed => exact ⟨0x41F00000, by decide⟩
  | torque => exact ⟨0x41400000, by decide⟩
  | temp => exact absurd rfl hq

/-- The largest raw word decodes to the range exactly, before `min` is added. -/
theorem decode_top (q : Quantity) :
    F32.div (F32.mul (F32.toF32 65535) (F32.fromBits32 (lutRange q))) (F32.toF32 65535) = F32.fromBits32 (lutRange q) := by
  cases q <;> decide

/-- The range encodes to the largest raw word exactly, once `min` is taken off. -/
theorem encode_top (q : Quantity) :
    F32.div (F32.mul (F32.fromBits32 (lutRange q)) (F32.toF32 65535)) (F32.fromBits32 (lutRange q)) = F32.toF32 65535 := by
  cases q <;> decide

/-- Scaling keeps the order of what is left once `min` is taken off. -/
theorem leMag_qScaled (q : Quantity) {neg : Bool} {u x : F32} (h : LeMag neg u (F32.sub x (F32.fromBits32 (lutMin q)))) :
    LeMag neg (F32.div (F32.mul u (F32.toF32 65535)) (F32.fromBits32 (lutRange q))) (qScaled q x) := by
  rw [qScaled, fromBits32_lutRange, toF32_65535]
  exact (h.mul (by decide)).div (rangeUnits_ne_zero q)

theorem toF32_raw_eq (raw : Half) : F32.toF32 raw.toNat = .fin false (raw.toNat * 2 ^ 149) :=
  F32.smallIntegersAreExact _ (Nat.le_of_lt_succ raw.isLt)

/-- A scaled raw word lies between 0 and the range. -/
theorem decode_le_range (q : Quantity) (raw : Half) : ∃ n ≤ rangeUnits q,
    F32.div (F32.mul (F32.toF32 raw.toNat) (F32.fromBits32 (lutRange q))) (F32.toF32 65535) = .fin false n := by
  have hraw : LeMag false (F32.toF32 raw.toNat) (F32.toF32 65535) := by
    rw [toF32_raw_eq, toF32_65535]
    exact .fin (Nat.mul_le_mul_right _ (Nat.le_of_lt_succ raw.isLt))
  have hle : LeMag false (F32.div (F32.mul (F32.toF32 raw.toNat) (F32.fromBits32 (lutRange q))) (F32.toF32 65535))
      (F32.div (F32.mul (F32.toF32 65535) (F32.fromBits32 (lutRange q))) (F32.toF32 65535)) := by
    rw [toF32_65535] at *
    rw [fromBits32_lutRange]
    exact (hraw.mul (rangeUnits_ne_zero q)).div (by decide)
  rw [decode_top, fromBits32_lutRange] at hle
  rw [fromBits32_lutRange]
  exact hle.exists_fin

/-- Settles O50: what `min` is added to lies between 0 and the range, so the sum lies within `|min|`, which rounding does not
leave. -/
theorem decodedQuantitiesAreInRange : Obligations.DecodedQuantitiesAreInRange := by
  intro q raw hq
  obtain ⟨w, hw, hmin, hrange, htop⟩ := linear_entry hq
  obtain ⟨n, hn, hdecode⟩ := decode_le_range q raw
  have hround := F32.isRoundingOf_sum (F32.nanResult .add (.fin false n) (.fin true (F32.magOfPattern w))) false true n
    (F32.magOfPattern w)
  rw [hrange] at hn
  have hn' : (n : Rat) ≤ 2 * F32.magOfPattern w := by exact_mod_cast hn
  obtain ⟨b, m, hsum, hm⟩ := F32.finite_of_isRoundingOf hround hw (by
    rw [F32.units, F32.units, abs_le]
    constructor <;> linarith [(Nat.cast_nonneg n : (0 : Rat) ≤ n)])
  have hq : qDecode q raw = .fin b m := by rw [qDecode_linear hq, hdecode, hmin, F32.add, hsum]
  have hm' : (m : Rat) ≤ F32.magOfPattern w := by exact_mod_cast hm
  have hm0 : (0 : Rat) ≤ m := Nat.cast_nonneg m
  rw [htop, hq, hmin]
  refine ⟨rfl, ?_⟩
  cases b with
  | false => exact ⟨by rw [F32.units, F32.units]; linarith, hm'⟩
  | true => exact ⟨neg_le_neg hm', by rw [F32.units, F32.units]; linarith⟩

end Sys2Proof.Machine
end

section
/-! SUPPORT. `Clamp` (44_quantization_lut.md R234), and what lies outside the physical range. -/

namespace Sys2Proof.Machine

open F32 (LeMag)

theorem clamp_of_neg {z : Int} (h : z < 0) : clamp (.int z) = 0 := if_pos h

theorem clamp_of_gt {z : Int} (h : 65535 < z) : clamp (.int z) = 65535 := by
  rw [clamp, if_neg (by omega), if_pos h]

theorem clamp_of_mem {z : Int} (h0 : 0 ≤ z) (h : z ≤ 65535) : clamp (.int z) = BitVec.ofNat 16 z.toNat := by
  rw [clamp, if_neg (by omega), if_neg (by omega)]

theorem clamp_raw (raw : Half) : clamp (.int raw.toNat) = raw := by
  have := raw.isLt
  rw [clamp_of_mem (by omega) (by omega), Int.toNat_natCast, BitVec.ofNat_toNat, BitVec.setWidth_eq]

/-- A value with a negative sign is clamped to 0. -/
theorem clamp_of_leMag_true {u t : F32} (h : LeMag true u t) : ∃ r, roundHalfAway t = .ok r ∧ clamp r = 0 := by
  cases h with
  | fin h =>
    refine ⟨_, roundHalfAway_fin _ _, ?_⟩
    rw [if_pos rfl]
    obtain hneg | hzero := lt_or_eq_of_le (neg_nonpos.mpr (Int.natCast_nonneg _))
    · exact clamp_of_neg hneg
    · rw [hzero]
      rfl
  | finInf x => exact ⟨_, rfl, rfl⟩
  | infInf => exact ⟨_, rfl, rfl⟩

/-- A value of 65535 or more is clamped to 65535. -/
theorem clamp_of_leMag_65535 {t : F32} (h : LeMag false (F32.toF32 65535) t) :
    ∃ r, roundHalfAway t = .ok r ∧ clamp r = 65535 := by
  rw [toF32_65535] at h
  cases h with
  | @fin _ m h =>
    have hround : 65535 ≤ (m + 2 ^ 148) / 2 ^ 149 := by omega
    refine ⟨_, roundHalfAway_fin _ _, ?_⟩
    rw [if_neg Bool.false_ne_true]
    obtain hgt | heq := lt_or_eq_of_le hround
    · exact clamp_of_gt (by exact_mod_cast hgt)
    · rw [← heq]
      rfl
  | finInf => exact ⟨_, rfl, rfl⟩

/-- The exact difference that Q.ENC rounds first. -/
theorem isRoundingOf_sub_min (q : Quantity) {x : F32} (hfin : F32.isFinite x = true) :
    F32.IsRoundingOf (F32.sub x (F32.fromBits32 (lutMin q))) (x.units - (F32.fromBits32 (lutMin q)).units) := by
  obtain ⟨c, z, hz, -⟩ := lutMin_fin q
  match x, hfin with
  | .fin a m, _ =>
    rw [hz]
    exact F32.isRoundingOf_sub a c m z

theorem qEnc_of_lt_min {q : Quantity} {x : F32} (hfin : F32.isFinite x = true)
    (hlt : x.units < (F32.fromBits32 (lutMin q)).units) : ∃ r, roundHalfAway (qScaled q x) = .ok r ∧ clamp r = 0 := by
  have hsub : LeMag true (F32.ofRat true 0 1) (F32.sub x (F32.fromBits32 (lutMin q))) := by
    refine F32.leMag_of_isRoundingOf (isRoundingOf_sub_min q hfin) ?_ ?_
    · rw [F32.realSign, if_pos rfl]; linarith
    · rw [F32.realSign, if_pos rfl, Nat.cast_zero]; linarith
  exact clamp_of_leMag_true (leMag_qScaled q hsub)

theorem qEnc_of_gt_max {q : Quantity} {x : F32} (hfin : F32.isFinite x = true)
    (hlt : (F32.fromBits32 (lutMin q)).units + (F32.fromBits32 (lutRange q)).units < x.units) :
    ∃ r, roundHalfAway (qScaled q x) = .ok r ∧ clamp r = 65535 := by
  have hrange : (F32.fromBits32 (lutRange q)).units = rangeUnits q := by rw [fromBits32_lutRange, F32.units]
  have hpos : (0 : Rat) ≤ rangeUnits q := Nat.cast_nonneg _
  have hsub : LeMag false (F32.fromBits32 (lutRange q)) (F32.sub x (F32.fromBits32 (lutMin q))) := by
    rw [fromBits32_lutRange_eq_ofRat]
    refine F32.leMag_of_isRoundingOf (isRoundingOf_sub_min q hfin) ?_ ?_
    · rw [F32.realSign, if_neg Bool.false_ne_true]; linarith
    · rw [F32.realSign, if_neg Bool.false_ne_true]; linarith
  have hscaled := leMag_qScaled q hsub
  rw [encode_top] at hscaled
  exact clamp_of_leMag_65535 hscaled

/-- Settles O53: below `min` the scaled value has a negative sign; above `min + range` it is at least 65535, as the range
itself is and scaling keeps the order. -/
theorem outOfRangeValuesClamp : Obligations.OutOfRangeValuesClamp := by
  refine ⟨⟨rfl, rfl, fun z => ⟨clamp_of_neg, clamp_of_gt, fun h0 h => ?_⟩⟩,
    fun q value s hfin => ⟨fun hlt => ?_, fun hlt => ?_⟩⟩
  · rw [clamp_of_mem h0 h, BitVec.toNat_ofNat]
    omega
  · obtain ⟨r, hr, hclamp⟩ := qEnc_of_lt_min hfin hlt
    rw [exec_qEnc_of_roundHalfAway hfin hr, hclamp]
  · obtain ⟨r, hr, hclamp⟩ := qEnc_of_gt_max hfin hlt
    rw [exec_qEnc_of_roundHalfAway hfin hr, hclamp]

end Sys2Proof.Machine
end

section
/-! SUPPORT. The round trip R237 by error bounds: near the range a rounding is off by at most `2 ^ stepExp` units, and the six
roundings of the trip together move the raw word by far less than a half. -/

namespace Sys2Proof.Machine

open F32 (near_of_isRoundingOf isRoundingOf_sum isRoundingOf_sub isRoundingOf_mul isRoundingOf_div)

/-- Near the range of an entry, rounding is off by at most `2 ^ stepExp` units. -/
def stepExp : Quantity → Nat
  | .temp => 137
  | _ => 130

theorem stepExp_le (q : Quantity) : stepExp q ≤ 137 := by cases q <;> decide

/-! A range, counted in that step: below its power of two, with room for a few steps more. -/

theorem le_rangeUnits (q : Quantity) : (2 ^ 23 * 2 ^ stepExp q : Rat) ≤ rangeUnits q := by
  have h : 2 ^ 23 * 2 ^ stepExp q ≤ rangeUnits q := by cases q <;> decide
  exact_mod_cast h

theorem rangeUnits_le (q : Quantity) : (rangeUnits q : Rat) ≤ 15 * 2 ^ 21 * 2 ^ stepExp q := by
  have h : rangeUnits q ≤ 15 * 2 ^ 21 * 2 ^ stepExp q := by cases q <;> decide
  exact_mod_cast h

theorem raw_le (raw : Half) : (raw.toNat : Rat) ≤ 65535 := by exact_mod_cast Nat.le_of_lt_succ raw.isLt

/-- The exact value of a raw word above `min`, in units. -/
def offset (q : Quantity) (raw : Half) : Rat := raw.toNat * rangeUnits q / 65535

theorem offset_mul (q : Quantity) (raw : Half) : offset q raw * 65535 = raw.toNat * rangeUnits q :=
  div_mul_cancel₀ _ (by norm_num)

theorem offset_nonneg (q : Quantity) (raw : Half) : 0 ≤ offset q raw := by
  unfold offset
  positivity

theorem offset_le (q : Quantity) (raw : Half) : offset q raw ≤ rangeUnits q := by
  have hle := mul_le_mul_of_nonneg_right (raw_le raw) (Nat.cast_nonneg (rangeUnits q))
  linarith [offset_mul q raw]

theorem units_lutRange (q : Quantity) : (F32.fin false (rangeUnits q)).units = rangeUnits q := by rw [F32.units]

theorem units_integer (n : Nat) : (F32.fin false (n * 2 ^ 149)).units = n * 2 ^ 149 := by
  rw [F32.units]
  push_cast
  rfl

/-! Decoding. -/

/-- The first two roundings of a linear decode, before `min` is added. -/
theorem decode_near_offset (q : Quantity) (raw : Half) : ∃ b m,
    F32.div (F32.mul (F32.toF32 raw.toNat) (F32.fromBits32 (lutRange q))) (F32.toF32 65535) = .fin b m ∧
    |(F32.fin b m).units - offset q raw| ≤ 3 * 2 ^ stepExp q := by
  have hrange := rangeUnits_le q
  have hexp := stepExp_le q
  have hoffset0 := offset_nonneg q raw
  have hoffset := offset_le q raw
  have hstep : (0 : Rat) < 2 ^ stepExp q := by positivity
  have hprod := isRoundingOf_mul false false (raw.toNat * 2 ^ 149) (rangeUnits q)
  rw [units_integer, units_lutRange, mul_right_comm, mul_div_cancel_right₀ _ (by norm_num), ← offset_mul] at hprod
  obtain ⟨b₁, m₁, h₁, herr₁⟩ := near_of_isRoundingOf (j := stepExp q + 16) hprod (by omega)
    (by rw [abs_lt, pow_add]; constructor <;> linarith)
  rw [abs_le, pow_add] at herr₁
  have hquot := isRoundingOf_div b₁ false m₁ (y := 65535 * 2 ^ 149) (by norm_num)
  rw [units_integer, mul_div_mul_right _ _ (by norm_num)] at hquot
  obtain ⟨b₂, m₂, h₂, herr₂⟩ := near_of_isRoundingOf (j := stepExp q) hquot (by omega)
    (by rw [abs_lt]; constructor <;> linarith)
  rw [abs_le] at herr₂
  refine ⟨b₂, m₂, by rw [toF32_raw_eq, fromBits32_lutRange, h₁, toF32_65535, h₂], ?_⟩
  rw [abs_le]
  constructor <;> linarith

/-- The last rounding of a linear decode. -/
theorem qDecode_linear_near {q : Quantity} (hq : q ≠ .temp) (raw : Half) : ∃ b m, qDecode q raw = .fin b m ∧
    |(F32.fin b m).units - ((F32.fromBits32 (lutMin q)).units + offset q raw)| ≤ 4 * 2 ^ stepExp q := by
  obtain ⟨b₁, m₁, h₁, herr₁⟩ := decode_near_offset q raw
  obtain ⟨w, -, hmin, hrange, -⟩ := linear_entry hq
  have hrange' : (rangeUnits q : Rat) = 2 * F32.magOfPattern w := by exact_mod_cast hrange
  have hunits : (F32.fin true (F32.magOfPattern w)).units = -(F32.magOfPattern w : Rat) := by rw [F32.units]
  have hle := rangeUnits_le q
  have hexp := stepExp_le q
  have hoffset0 := offset_nonneg q raw
  have hoffset := offset_le q raw
  have hstep : (0 : Rat) < 2 ^ stepExp q := by positivity
  rw [abs_le] at herr₁
  have hsum := isRoundingOf_sum (F32.nanResult .add (.fin b₁ m₁) (.fin true (F32.magOfPattern w))) b₁ true m₁
    (F32.magOfPattern w)
  obtain ⟨b₂, m₂, h₂, herr₂⟩ := near_of_isRoundingOf (j := stepExp q) hsum (by omega)
    (by rw [abs_lt]; constructor <;> linarith)
  rw [abs_le] at herr₂
  refine ⟨b₂, m₂, by rw [qDecode_linear hq, h₁, hmin, F32.add, h₂], ?_⟩
  rw [hmin, abs_le]
  constructor <;> linarith

/-- The one rounding of a temperature. -/
theorem qDecode_temp_near (raw : Half) : ∃ b m, qDecode .temp raw = .fin b m ∧
    |(F32.fin b m).units - ((F32.fromBits32 (lutMin .temp)).units + offset .temp raw)| ≤ 4 * 2 ^ stepExp .temp := by
  have hrange : rangeUnits .temp = 13107 * 2 ^ 148 := by decide
  have hmin : F32.fromBits32 (lutMin .temp) = .fin false 0 := by decide
  have hraw := raw_le raw
  have hraw0 : (0 : Rat) ≤ raw.toNat := Nat.cast_nonneg _
  have hquot := isRoundingOf_div false false (raw.toNat * 2 ^ 149) (y := 10 * 2 ^ 149) (by norm_num)
  rw [units_integer, units_integer, mul_div_mul_right _ _ (by norm_num)] at hquot
  obtain ⟨b, m, h, herr⟩ := near_of_isRoundingOf (j := 137) hquot (by norm_num)
    (by rw [abs_lt]; push_cast; constructor <;> linarith)
  refine ⟨b, m, by rw [qDecode_temp, toF32_raw_eq, toF32_10, h], ?_⟩
  have hexact : (F32.fin false 0).units + offset .temp raw = raw.toNat * 2 ^ 149 / (10 : Nat) := by
    rw [F32.units, offset, hrange]
    push_cast
    ring
  rw [hmin, hexact]
  exact herr.trans (by norm_num [stepExp])

theorem qDecode_near (q : Quantity) (raw : Half) : ∃ b m, qDecode q raw = .fin b m ∧
    |(F32.fin b m).units - ((F32.fromBits32 (lutMin q)).units + offset q raw)| ≤ 4 * 2 ^ stepExp q := by
  by_cases hq : q = .temp
  · rw [hq]
    exact qDecode_temp_near raw
  · exact qDecode_linear_near hq raw

/-! Encoding, of a value a few steps off a raw word's. -/

/-- The first two roundings of an encode, before the range divides. -/
theorem encode_near_product {q : Quantity} {raw : Half} {a : Bool} {x : Nat}
    (h : |(F32.fin a x).units - ((F32.fromBits32 (lutMin q)).units + offset q raw)| ≤ 4 * 2 ^ stepExp q) :
    ∃ b m, F32.mul (F32.sub (.fin a x) (F32.fromBits32 (lutMin q))) (F32.toF32 65535) = .fin b m ∧
      |(F32.fin b m).units - raw.toNat * rangeUnits q| ≤ 6 * 2 ^ 16 * 2 ^ stepExp q := by
  have hrange := rangeUnits_le q
  have hexp := stepExp_le q
  have hoffset0 := offset_nonneg q raw
  have hoffset := offset_le q raw
  have hstep : (0 : Rat) < 2 ^ stepExp q := by positivity
  obtain ⟨c, z, hmin, -⟩ := lutMin_fin q
  rw [hmin, abs_le] at h
  obtain ⟨b₁, m₁, h₁, herr₁⟩ := near_of_isRoundingOf (j := stepExp q) (isRoundingOf_sub a c x z) (by omega)
    (by rw [abs_lt]; constructor <;> linarith)
  rw [abs_le] at herr₁
  have hprod := isRoundingOf_mul b₁ false m₁ (65535 * 2 ^ 149)
  rw [units_integer, ← mul_assoc, mul_div_cancel_right₀ _ (by norm_num)] at hprod
  obtain ⟨b₂, m₂, h₂, herr₂⟩ := near_of_isRoundingOf (j := stepExp q + 16) hprod (by omega)
    (by rw [abs_lt, pow_add]; push_cast; constructor <;> linarith)
  rw [abs_le, pow_add] at herr₂
  push_cast at herr₂
  refine ⟨b₂, m₂, by rw [hmin, h₁, toF32_65535, h₂], ?_⟩
  rw [← offset_mul, abs_le]
  constructor <;> linarith

/-- The last rounding of an encode. -/
theorem qScaled_near {q : Quantity} {raw : Half} {a : Bool} {x : Nat}
    (h : |(F32.fin a x).units - ((F32.fromBits32 (lutMin q)).units + offset q raw)| ≤ 4 * 2 ^ stepExp q) :
    ∃ b m, qScaled q (.fin a x) = .fin b m ∧ |(F32.fin b m).units - raw.toNat * 2 ^ 149| < 2 ^ 148 := by
  obtain ⟨b₁, m₁, h₁, herr₁⟩ := encode_near_product h
  have hstep : (0 : Rat) < 2 ^ stepExp q := by positivity
  have hrange := le_rangeUnits q
  have hpos : (0 : Rat) < rangeUnits q := by linarith
  have hexact : |(F32.fin b₁ m₁).units * 2 ^ 149 / rangeUnits q - raw.toNat * 2 ^ 149| ≤ 6 * 2 ^ 142 := by
    rw [abs_le] at herr₁ ⊢
    rw [le_sub_iff_add_le, sub_le_iff_le_add, le_div_iff₀ hpos, div_le_iff₀ hpos]
    constructor <;> linarith
  have hraw := raw_le raw
  have hraw0 : (0 : Rat) ≤ raw.toNat := Nat.cast_nonneg _
  have hquot := isRoundingOf_div b₁ false m₁ (rangeUnits_ne_zero q)
  rw [units_lutRange] at hquot
  rw [abs_le] at hexact
  obtain ⟨b₂, m₂, h₂, herr₂⟩ := near_of_isRoundingOf (j := 140) hquot (by norm_num)
    (by rw [abs_lt]; constructor <;> linarith)
  rw [abs_le] at herr₂
  refine ⟨b₂, m₂, by rw [qScaled, h₁, fromBits32_lutRange, h₂], ?_⟩
  rw [abs_lt]
  constructor <;> linarith

/-- A value less than a half away from a natural number rounds to it. -/
theorem roundHalfAway_of_near {neg : Bool} {mag n : Nat} (h : |(F32.fin neg mag).units - n * 2 ^ 149| < 2 ^ 148) :
    roundHalfAway (.fin neg mag) = .ok (.int n) := by
  rw [abs_lt] at h
  obtain ⟨hlow, hhigh⟩ := h
  rw [roundHalfAway_fin]
  cases neg with
  | false =>
    rw [F32.units] at hlow hhigh
    have hlow' : n * 2 ^ 149 < mag + 2 ^ 148 := by exact_mod_cast (by linarith : (n * 2 ^ 149 : Rat) < mag + 2 ^ 148)
    have hhigh' : mag < n * 2 ^ 149 + 2 ^ 148 := by exact_mod_cast (by linarith : (mag : Rat) < n * 2 ^ 149 + 2 ^ 148)
    rw [if_neg Bool.false_ne_true, show (mag + 2 ^ 148) / 2 ^ 149 = n by omega]
  | true =>
    rw [F32.units] at hlow
    have hlow' : mag + n * 2 ^ 149 < 2 ^ 148 := by exact_mod_cast (by linarith : (mag + n * 2 ^ 149 : Rat) < 2 ^ 148)
    rw [if_pos rfl, show (mag + 2 ^ 148) / 2 ^ 149 = 0 by omega, show n = 0 by omega]
    rfl

/-- Settles O54: the decoded value is near the raw word's exact one, so the scaled value is less than a half off the raw
word. -/
theorem scalingRoundTripIsExact : Obligations.ScalingRoundTripIsExact := by
  intro q raw s
  obtain ⟨a, x, hx, hnear⟩ := qDecode_near q raw
  obtain ⟨b, m, hscaled, hclose⟩ := qScaled_near hnear
  refine ⟨F32.bits32 (qDecode q raw), exec_qDec q raw s, ?_⟩
  have hr : roundHalfAway (qScaled q (F32.fromBits32 (F32.bits32 (qDecode q raw)))) = .ok (.int raw.toNat) := by
    rw [fromBits32_bits32_qDecode, hx, hscaled, roundHalfAway_of_near hclose]
  rw [exec_qEnc_of_roundHalfAway (finitePattern_qDecode q raw) hr, clamp_raw]

end Sys2Proof.Machine
end

section
/-! SUPPORT. The idle block, and the status of a response (60_exceptions.md R251, R264). -/

namespace Sys2Proof.Machine

/-- With nothing in presentation and no move to come, nobody moves. -/
theorem step_idle {s : State} (hp : s.port = none) (h : s.host = []) : step s = .next s := by
  simp only [step, agentStep, turn_idle hp h]

/-- Settles O15. -/
theorem idleBlockKeepsRsp : Obligations.IdleBlockKeepsRsp := fun _ => step_idle

theorem Response.status_ok (r : Result) : (Response.ok r).status = 0 := rfl

theorem Response.status_err (k : ErrKind) (v : BitVec 5) : (Response.err k v).status = k.code := rfl

/-- Settles O48: the status of an error is the code of its kind, whatever the `errval`. -/
theorem statusCodes : Obligations.StatusCodes := by
  refine ⟨Response.status_ok, fun v => ?_⟩
  simp only [Response.status_err, ErrKind.code, and_self]

end Sys2Proof.Machine
end

section
/-! SUPPORT. Reset and runs (70_reset_and_hazards.md R280, R282, R284, R286): a reset does not wait, the host's duty is kept by
every step, and three steps carry one request through. -/

namespace Sys2Proof.Machine

/-- A reset moves first, whatever stands at the input. -/
theorem step_reset {s : State} {rest : List HostMove} (h : s.host = .reset :: rest) :
    step s = hostMove .reset { s with host := rest } := by
  simp only [step, agentStep, turn_reset h]

/-- Settles O11. -/
theorem resetDiscardsTheUnansweredRequest : Obligations.ResetDiscardsTheUnansweredRequest :=
  fun _ _ hhost => step_reset hhost

/-! The host's duty (10_state.md R45). -/

theorem dutiful_present {s : State} {q : Request} {rest : List HostMove} (h : s.host = .present q :: rest) :
    s.dutiful = readsOnlyAnswered true rest := by
  rw [State.dutiful, h, readsOnlyAnswered]

theorem dutiful_takeResponse {s : State} {rest : List HostMove} (h : s.host = .takeResponse :: rest) :
    s.dutiful = ((s.rsp.isSome || s.port.isSome) && readsOnlyAnswered (s.rsp.isSome || s.port.isSome) rest) := by
  rw [State.dutiful, h, readsOnlyAnswered]

theorem dutiful_reset {s : State} {rest : List HostMove} (h : s.host = .reset :: rest) :
    s.dutiful = readsOnlyAnswered false rest := by
  rw [State.dutiful, h, readsOnlyAnswered]

/-- With a dutiful host a step gives a next state, and the host is dutiful there: a request that is answered leaves the input
as its response enters `RSP`, and a response that is taken stays in `RSP`. -/
theorem exists_step_dutiful {s : State} (hs : s.dutiful = true) : ∃ t, step s = .next t ∧ t.dutiful = true := by
  obtain ⟨_, hhost, h⟩ | ⟨_, _, hport, -, h⟩ | ⟨_, _, -, hhost, h⟩ | ⟨_, _, hport, hhost, hrsp, h⟩ |
    ⟨_, hport, hhost, hrsp, -⟩ | ⟨-, -, h⟩ := step_cases s
  case inl => exact ⟨_, h, (dutiful_reset hhost).symm.trans hs⟩
  case inr.inl =>
    refine ⟨_, h, ?_⟩
    simpa only [State.dutiful, hport, Option.isSome_some, Bool.or_true, Bool.true_or] using hs
  case inr.inr.inl =>
    rw [dutiful_present hhost] at hs
    refine ⟨_, h, ?_⟩
    simpa only [State.dutiful, Option.isSome_some, Bool.or_true] using hs
  case inr.inr.inr.inl =>
    rw [dutiful_takeResponse hhost, Bool.and_eq_true] at hs
    obtain ⟨-, hmoves⟩ := hs
    exact ⟨_, h, hmoves⟩
  case inr.inr.inr.inr.inl =>
    rw [dutiful_takeResponse hhost, hrsp, hport] at hs
    cases hs
  case inr.inr.inr.inr.inr => exact ⟨s, h, hs⟩

/-- Settles O18: every step of a dutiful host gives a next state and keeps the duty, so no step of a run faults. -/
theorem dutifulHostNeverFaults : Obligations.DutifulHostNeverFaults := by
  intro s hs n f
  induction n generalizing s with
  | zero => exact nofun
  | succ n ih =>
    obtain ⟨t, hstep, ht⟩ := exists_step_dutiful hs
    rw [core_run_next hstep]
    exact ih t ht

/-! Runs of requests, each presented and its response taken. -/

/-- Three steps present a request, answer it and take its response. -/
theorem run_present_takeResponse {q : Request} {r : Response}
    (hanswer : ∀ s, perform (.request q) s = .next { s with rsp := some r })
    (n : Nat) (before : Option Response) (rest : List HostMove) (obs : List Response) :
    Host.Core.run Sys2Proof.core (n + 3)
        (State.mk before none (.present q :: .takeResponse :: rest) obs) =
      Host.Core.run Sys2Proof.core n (State.mk (some r) none rest (obs ++ [r])) := by
  have hpresent : step ⟨before, none, .present q :: .takeResponse :: rest, obs⟩ =
      .next ⟨before, some (.request q), .takeResponse :: rest, obs⟩ := step_host (m := .present q) rfl rfl
  have hblock : step ⟨before, some (.request q), .takeResponse :: rest, obs⟩ =
      .next ⟨some r, none, .takeResponse :: rest, obs⟩ := (step_block rfl (by simp)).trans (hanswer _)
  have htake : step ⟨some r, none, .takeResponse :: rest, obs⟩ = .next ⟨some r, none, rest, obs ++ [r]⟩ :=
    step_host (m := .takeResponse) rfl rfl
  rw [core_run_next hpresent, core_run_next hblock, core_run_next htake]

/-- A run of requests from any response in `RSP` and any record of responses taken: it adds each request's answer to the
record, and `RSP` holds the last answer, or what it held before when there is none. -/
theorem run_runMoves {answer : Request → Response}
    (hanswer : ∀ q s, perform (.request q) s = .next { s with rsp := some (answer q) })
    (rs : List Request) (before : Option Response) (obs : List Response) :
    Host.Core.run Sys2Proof.core (3 * rs.length) (State.mk before none (runMoves rs) obs) =
      .next (State.mk ((rs.map answer).getLast?.or before) none [] (obs ++ rs.map answer)) := by
  induction rs generalizing before obs with
  | nil => rw [List.map_nil, List.append_nil]; rfl
  | cons q rs ih =>
    rw [List.length_cons, Nat.mul_succ, runMoves, run_present_takeResponse (hanswer q), ih, List.map_cons,
      List.getLast?_cons, Option.or_some, Option.some_or, List.append_assoc, List.singleton_append]

/-- Settles O19: the answer to a request is chosen before the state, so the run observes the answers that the requests get
straight after reset. -/
theorem runObservesEachRequestsOwnResponse : Obligations.RunObservesEachRequestsOwnResponse := by
  intro rs
  choose answer hanswer using fun q : Request => perform_answers (.request q)
  refine ⟨_, rs.map answer, run_runMoves hanswer rs none [], by rw [Option.or_none, List.nil_append], ?_⟩
  rw [List.forall₂_map_right_iff, List.forall₂_same]
  intro q _
  exact (step_block (s := { State.reset with port := some (.request q) }) rfl (Option.some_ne_none _).symm).trans (hanswer q _)

end Sys2Proof.Machine
end
